-- ==== Sys2Proof/Word.lean ====
section
/-! DEFINITION. The value types of the block's ports: 32-bit register words and exact frequencies. -/

namespace Sys2Proof

/-- A register word: 32 bits, bit 0 least significant (00_scope.md R7, 30_encoding.md R41). -/
abbrev Word := BitVec 32

/-- One byte of a transport payload (20_memory.md R33). -/
abbrev Byte := BitVec 8

/-- A value of a frequency port: an exact rational number of MHz, never negative
(00_scope.md R5, 10_state.md R17; log 12). -/
structure Freq where
  mhz : Rat
  nonneg : 0 ≤ mhz
  deriving DecidableEq, Repr

/-- The value of a Bool input or a flag as a bit: 1 is true (30_encoding.md R57). -/
abbrev bit (b : Bool) : BitVec 1 := BitVec.ofBool b

end Sys2Proof
end

