-- ==== Sys2Proof/Config.lean ====
section
/-! DEFINITION. The block's parameters (00_scope.md R4, R6): what an instantiation fixes before the first
operation. A state carries one instantiation and no step changes it (log 3). -/

namespace Sys2Proof

/-- The tie rule of `round` (00_scope.md R8, parameter ROUND_MODE). -/
inductive RoundMode where
  | halfEven
  | halfAway
  deriving DecidableEq, Repr

/-- What SOLVE does below 34.375 MHz (40_divider_solver.md R73, parameter LOW_FREQ_POLICY). -/
inductive LowFreqPolicy where
  | error
  | cap64
  deriving DecidableEq, Repr

/-- The byte order the external transport uses (20_memory.md R33, parameter TRANSPORT_BYTE_ORDER). -/
inductive ByteOrder where
  | little
  | big
  deriving DecidableEq, Repr

/-- A lookup table: a finite map from a physical value to a code. The width of the code is the width
00_scope.md R6 gives, so the constraints of R6 hold of every table (log 14). -/
abbrev Table (n : Nat) := List (Rat × BitVec n)

/-- One instantiation of the parameters of 00_scope.md R4. -/
structure Config where
  roundMode : RoundMode
  lowFreqPolicy : LowFreqPolicy
  /-- CP_CURRENT_TABLE: mA to a 4-bit code. -/
  cpCurrentTable : Table 4
  /-- ABP_TABLE: ns to a 1-bit code. -/
  abpTable : Table 1
  /-- OUT_POWER_TABLE: dBm to a 2-bit code, for both output powers. -/
  outPowerTable : Table 2
  /-- EMIT_ORDER: the register addresses in the order their words are handed on. -/
  emitOrder : List (Fin 6)
  transportByteOrder : ByteOrder
  /-- FREQ_W: the width of a frequency port. -/
  freqWidth : Nat
  /-- FREQ_UNIT: the MHz value of a raw frequency's least significant bit. -/
  freqUnit : Freq
  /-- KEY_W: the width of a table-key port. -/
  keyWidth : Nat
  /-- KEY_UNIT: the value of a raw key's least significant bit, in the key's unit. -/
  keyUnit : Rat
  /-- SOL_W: the width of the INT, MOD and FRAC ports (log 13). -/
  solWidth : Nat
  deriving DecidableEq, Repr

/-- PRESUMED (log 4): the marked default of CP_CURRENT_TABLE, 93_implementation_defined.md G1. -/
def Config.cpCurrentDefault : Table 4 :=
  [(mkRat 31 100, 0), (mkRat 63 100, 1), (mkRat 94 100, 2), (mkRat 125 100, 3),
   (mkRat 156 100, 4), (mkRat 188 100, 5), (mkRat 219 100, 6), (mkRat 250 100, 7),
   (mkRat 281 100, 8), (mkRat 313 100, 9), (mkRat 344 100, 10), (mkRat 375 100, 11),
   (mkRat 406 100, 12), (mkRat 438 100, 13), (mkRat 469 100, 14), (mkRat 500 100, 15)]

/-- PRESUMED (log 4): the marked default of ABP_TABLE, 93_implementation_defined.md G2. -/
def Config.abpDefault : Table 1 := [(10, 0), (6, 1)]

/-- PRESUMED (log 4): the marked default of OUT_POWER_TABLE, 93_implementation_defined.md G3. -/
def Config.outPowerDefault : Table 2 := [(-4, 0), (-1, 1), (2, 2), (5, 3)]

/-- EMIT_ORDER's spec value: descending address (42_flow.md R142). -/
def Config.descending : List (Fin 6) := [5, 4, 3, 2, 1, 0]

/-- The instantiation with R4's spec values, the marked default tables (PRESUMED, log 4) and a
little-endian transport (DESIGN CHOICE, log 6). -/
def Config.specValues : Config where
  roundMode := .halfEven
  lowFreqPolicy := .error
  cpCurrentTable := Config.cpCurrentDefault
  abpTable := Config.abpDefault
  outPowerTable := Config.outPowerDefault
  emitOrder := Config.descending
  transportByteOrder := .little
  freqWidth := 40
  freqUnit := ⟨mkRat 1 1000000, by decide +kernel⟩
  keyWidth := 16
  keyUnit := mkRat 1 100
  solWidth := 64

end Sys2Proof
end

