-- ==== Sys2Proof/Syntax.lean ====
section
/-! DEFINITION. The instructions: one constructor per row of spec/opcode_table.json, and the command by which
the caller presents one. -/

namespace Sys2Proof

/-- DeviceVariant (10_state.md R17, R19): code 0 is BASE, code 1 is EXT. Never packed into a word. -/
inductive Variant where
  | base
  | ext
  deriving DecidableEq, Repr

/-- The numeric code of a variant at its port (10_state.md R17). -/
def Variant.code : Variant → BitVec 1
  | .base => 0
  | .ext => 1

/-- The fields of word 0 (30_encoding.md R43). -/
structure W0Fields where
  int : BitVec 16
  frac : BitVec 12
  deriving DecidableEq, Repr

/-- The fields of word 1 (30_encoding.md R44). -/
structure W1Fields where
  phaseAdjust : Bool
  prescaler : BitVec 1
  phase : BitVec 12
  mod : BitVec 12
  deriving DecidableEq, Repr

/-- The fields of word 2 (30_encoding.md R45). -/
structure W2Fields where
  lowNoiseSpur : BitVec 1
  muxOut : BitVec 3
  refDoubler : Bool
  refDiv2 : Bool
  rCounter : BitVec 10
  doubleBufferR4 : Bool
  cpCurrentCode : BitVec 4
  fracModeActive : Bool
  abpNot10ns : Bool
  pdPolarity : BitVec 1
  powerDown : Bool
  cpThreeState : Bool
  counterReset : Bool
  deriving DecidableEq, Repr

/-- The fields of word 3 that both variants have (30_encoding.md R46). -/
structure W3BaseFields where
  resyncEnable : Bool
  clkDivMode : BitVec 2
  clkDivValue : BitVec 12
  deriving DecidableEq, Repr

/-- The fields of word 3 for EXT (30_encoding.md R46). -/
structure W3ExtFields where
  bsClkMode : BitVec 1
  abpCode : BitVec 1
  chargeCancel : Bool
  resyncEnable : Bool
  clkDivMode : BitVec 2
  clkDivValue : BitVec 12
  deriving DecidableEq, Repr

/-- The fields of word 4 (30_encoding.md R47). -/
structure W4Fields where
  feedbackSelect : BitVec 1
  dividerSelect : BitVec 3
  bsClkDiv : BitVec 8
  vcoPowerDown : Bool
  muteTillLockDetect : Bool
  auxOutputSelect : BitVec 1
  auxOutputEnable : Bool
  auxOutputPowerCode : BitVec 2
  outputEnable : Bool
  outputPowerCode : BitVec 2
  deriving DecidableEq, Repr

/-- The field of word 5 (30_encoding.md R48). -/
structure W5Fields where
  ldPinMode : BitVec 2
  deriving DecidableEq, Repr

/-- The instructions, in the order of the opcode table. The two operations take their inputs from
ports (30_encoding.md R40), so their constructors have no operand; a format row has its fields. -/
inductive Instr where
  | solve
  | encode
  | w0 (f : W0Fields)
  | w1 (f : W1Fields)
  | w2 (f : W2Fields)
  | w3Ext (f : W3ExtFields)
  | w3Base (f : W3BaseFields)
  | w4 (f : W4Fields)
  | w5 (f : W5Fields)
  deriving DecidableEq, Repr

/-- What the caller presents for one call: the 1-bit operation select (30_encoding.md R40), or a
register word to hand on (42_flow.md R142). -/
inductive Command where
  | op (sel : BitVec 1)
  | word (w : Word)
  deriving DecidableEq, Repr

end Sys2Proof
end

