-- ==== Sys2Proof/WellFormed.lean ====
section
/-! DEFINITION. Which instructions the block can produce for a device variant (field widths are types, so two
checks remain: the variant of a word 3, and divider select 7), and which instantiations of the parameters
are maps and hand-off orders. -/

namespace Sys2Proof

/-- One of the three bits that only EXT's word 3 has is 1 (30_encoding.md R46, R49). -/
def W3ExtFields.hasExtOnlyBit (f : W3ExtFields) : Bool :=
  f.bsClkMode != 0 || f.abpCode != 0 || f.chargeCancel

/-- The instruction a word is read as under the variant `v`: of a word 3 that both variants produce,
only the format of `v` (30_encoding.md R46; log 10); a word 4 never has divider select 7
(30_encoding.md R60). -/
def Instr.wf (v : Variant) : Instr → Bool
  | .solve => true
  | .encode => true
  | .w0 _ => true
  | .w1 _ => true
  | .w2 _ => true
  | .w3Ext f => v == .ext || f.hasExtOnlyBit
  | .w3Base _ => v == .base
  | .w4 f => f.dividerSelect != 7
  | .w5 _ => true

/-- A table is a map: no key stands twice (00_scope.md R4; log 14). -/
def Table.wf {n : Nat} (t : Table n) : Bool := decide (t.map Prod.fst).Nodup

/-- An instantiation of the parameters: the tables are maps, and the hand-off order names each of the
six words exactly once (00_scope.md R4, 42_flow.md R142). -/
def Config.wf (c : Config) : Bool :=
  Table.wf c.cpCurrentTable && Table.wf c.abpTable && Table.wf c.outPowerTable
    && decide (c.emitOrder.Perm [0, 1, 2, 3, 4, 5])

end Sys2Proof
end

