-- ==== Sys2Proof/Decode.lean ====
section
/-! DEFINITION. Packing and slicing of the six register-word formats (30_encoding.md R41 to R48), the decoder
with its named rejections, and the encoder. -/

namespace Sys2Proof

/-- A field value shifted to its least significant bit position `lo` (30_encoding.md R41). -/
def place {n : Nat} (v : BitVec n) (lo : Nat) : Word := v.setWidth 32 <<< lo

/-- The inclusive slice of `n` bits of `w` from bit `lo` up (00_scope.md R7). -/
def slice (w : Word) (lo n : Nat) : BitVec n := w.extractLsb' lo n

/-- One bit of a word as a flag (00_scope.md R7). -/
def flag (w : Word) (n : Nat) : Bool := w.getLsbD n

/-- The address tag, bits [2:0] (30_encoding.md R42). -/
def addressTag (w : Word) : BitVec 3 := slice w 0 3

/-! ## Packing, 41_register_encoder.md R110 to R115 -/

/-- 41_register_encoder.md R110. -/
def packW0 (f : W0Fields) : Word :=
  place f.int 15 ||| place f.frac 3 ||| 0

/-- 41_register_encoder.md R111. -/
def packW1 (f : W1Fields) : Word :=
  place (bit f.phaseAdjust) 28 ||| place f.prescaler 27 ||| place f.phase 15 ||| place f.mod 3 ||| 1

/-- 41_register_encoder.md R112. -/
def packW2 (f : W2Fields) : Word :=
  place f.lowNoiseSpur 29 ||| place f.muxOut 26 ||| place (bit f.refDoubler) 25
    ||| place (bit f.refDiv2) 24 ||| place f.rCounter 14 ||| place (bit f.doubleBufferR4) 13
    ||| place f.cpCurrentCode 9 ||| place (bit f.fracModeActive) 8 ||| place (bit f.abpNot10ns) 7
    ||| place f.pdPolarity 6 ||| place (bit f.powerDown) 5 ||| place (bit f.cpThreeState) 4
    ||| place (bit f.counterReset) 3 ||| 2

/-- 41_register_encoder.md R113, the part of both variants. -/
def packW3Base (f : W3BaseFields) : Word :=
  place (bit f.resyncEnable) 18 ||| place f.clkDivMode 15 ||| place f.clkDivValue 3 ||| 3

/-- 41_register_encoder.md R113: for EXT three more bits are OR-ed in. -/
def packW3Ext (f : W3ExtFields) : Word :=
  packW3Base ⟨f.resyncEnable, f.clkDivMode, f.clkDivValue⟩
    ||| place f.bsClkMode 23 ||| place f.abpCode 22 ||| place (bit f.chargeCancel) 21

/-- 41_register_encoder.md R114. -/
def packW4 (f : W4Fields) : Word :=
  place f.feedbackSelect 23 ||| place f.dividerSelect 20 ||| place f.bsClkDiv 12
    ||| place (bit f.vcoPowerDown) 11 ||| place (bit f.muteTillLockDetect) 10
    ||| place f.auxOutputSelect 9 ||| place (bit f.auxOutputEnable) 8
    ||| place f.auxOutputPowerCode 6 ||| place (bit f.outputEnable) 5
    ||| place f.outputPowerCode 3 ||| 4

/-- 41_register_encoder.md R115: the reserved value 3 stands at bits [20:19]. -/
def packW5 (f : W5Fields) : Word :=
  place f.ldPinMode 22 ||| place (3 : BitVec 2) 19 ||| 5

/-! ## Slicing, 30_encoding.md R43 to R48 and R62 -/

/-- 30_encoding.md R43. -/
def unpackW0 (w : Word) : W0Fields where
  int := slice w 15 16
  frac := slice w 3 12

/-- 30_encoding.md R44. -/
def unpackW1 (w : Word) : W1Fields where
  phaseAdjust := flag w 28
  prescaler := slice w 27 1
  phase := slice w 15 12
  mod := slice w 3 12

/-- 30_encoding.md R45. -/
def unpackW2 (w : Word) : W2Fields where
  lowNoiseSpur := slice w 29 1
  muxOut := slice w 26 3
  refDoubler := flag w 25
  refDiv2 := flag w 24
  rCounter := slice w 14 10
  doubleBufferR4 := flag w 13
  cpCurrentCode := slice w 9 4
  fracModeActive := flag w 8
  abpNot10ns := flag w 7
  pdPolarity := slice w 6 1
  powerDown := flag w 5
  cpThreeState := flag w 4
  counterReset := flag w 3

/-- 30_encoding.md R46, BASE. -/
def unpackW3Base (w : Word) : W3BaseFields where
  resyncEnable := flag w 18
  clkDivMode := slice w 15 2
  clkDivValue := slice w 3 12

/-- 30_encoding.md R46, EXT. -/
def unpackW3Ext (w : Word) : W3ExtFields where
  bsClkMode := slice w 23 1
  abpCode := slice w 22 1
  chargeCancel := flag w 21
  resyncEnable := flag w 18
  clkDivMode := slice w 15 2
  clkDivValue := slice w 3 12

/-- 30_encoding.md R47. -/
def unpackW4 (w : Word) : W4Fields where
  feedbackSelect := slice w 23 1
  dividerSelect := slice w 20 3
  bsClkDiv := slice w 12 8
  vcoPowerDown := flag w 11
  muteTillLockDetect := flag w 10
  auxOutputSelect := slice w 9 1
  auxOutputEnable := flag w 8
  auxOutputPowerCode := slice w 6 2
  outputEnable := flag w 5
  outputPowerCode := slice w 3 2

/-- 30_encoding.md R48. -/
def unpackW5 (w : Word) : W5Fields where
  ldPinMode := slice w 22 2

/-! ## The decoder -/

/-- Why a word is one the block never produces, for either variant (30_encoding.md R60). -/
inductive DecodeError where
  /-- Address 6 or 7: no register is there (20_memory.md R31). -/
  | unusedAddress (address : BitVec 3)
  /-- An unused bit of the word's format is 1 (30_encoding.md R50, R59). -/
  | unusedBitSet (address : BitVec 3)
  /-- Divider select 7 in a word 4 (30_encoding.md R60). -/
  | dividerSelectSeven
  /-- Bits [20:19] of a word 5 are not 3 (30_encoding.md R58, R60). -/
  | reservedFieldNotThree
  deriving DecidableEq, Repr

/-- The bits of word `a` that are 0 in every produced word of both variants (30_encoding.md R50). -/
def unusedBits (a : BitVec 3) : Word :=
  if a = 0 then 0x80000000
  else if a = 1 then 0xE0000000
  else if a = 2 then 0xC0000000
  else if a = 3 then 0xFF1A0000
  else if a = 4 then 0xFF000000
  else 0xFF27FFF8

/-- The instruction a register word stands for (30_encoding.md R62, R46). Every word of either variant
has one; a word 3 with bits [23:21] all 0 has both formats, and the variant `v` decides (log 10). -/
def decodeWord (v : Variant) (w : Word) : Except DecodeError Instr :=
  let a := addressTag w
  if 5 < a.toNat then .error (.unusedAddress a)
  else if w &&& unusedBits a ≠ 0 then .error (.unusedBitSet a)
  else if a = 0 then .ok (.w0 (unpackW0 w))
  else if a = 1 then .ok (.w1 (unpackW1 w))
  else if a = 2 then .ok (.w2 (unpackW2 w))
  else if a = 3 then
    if v = .base ∧ slice w 21 3 = 0 then .ok (.w3Base (unpackW3Base w))
    else .ok (.w3Ext (unpackW3Ext w))
  else if a = 4 then
    if slice w 20 3 = 7 then .error .dividerSelectSeven else .ok (.w4 (unpackW4 w))
  else if slice w 19 2 ≠ 3 then .error .reservedFieldNotThree
  else .ok (.w5 (unpackW5 w))

/-- Decoding of a command, for a device variant: the operation select has two codes and no other
(30_encoding.md R40). -/
def decode (v : Variant) : Command → Except DecodeError Instr
  | .op sel => if sel = 0 then .ok .solve else .ok .encode
  | .word w => decodeWord v w

/-! ## The encoder -/

/-- The command that presents an instruction (30_encoding.md R40, R43 to R48). -/
def encode : Instr → Command
  | .solve => .op 0
  | .encode => .op 1
  | .w0 f => .word (packW0 f)
  | .w1 f => .word (packW1 f)
  | .w2 f => .word (packW2 f)
  | .w3Ext f => .word (packW3Ext f)
  | .w3Base f => .word (packW3Base f)
  | .w4 f => .word (packW4 f)
  | .w5 f => .word (packW5 f)

/-! ## The opcode table's numbering -/

/-- The command whose bits are `w`, as the opcode table numbers them: a row of at most 8 bits is the
1-bit operation select in bit 0, a wider row is a 32-bit word (log 11). -/
def tableCommand (nbits w : Nat) : Command :=
  if nbits ≤ 8 then .op (BitVec.ofNat 1 w) else .word (BitVec.ofNat 32 w)

/-- The variant under which a table word is read, or `none` where its reading does not depend on it: a
word 3 with bits [23:21] all 0 is read as BASE's (log 11). -/
def tableVariant : Command → Option Variant
  | .op _ => none
  | .word w => if addressTag w = 3 ∧ slice w 21 3 = 0 then some .base else none

/-- The instruction the decoder reads from a row's bits. -/
def decodeTableWord (nbits w : Nat) : Option Instr :=
  let c := tableCommand nbits w
  match decode ((tableVariant c).getD .base) c with
  | .ok i => some i
  | .error _ => none

end Sys2Proof
end

