-- ==== Sys2Proof/Machine/State.lean ====
section
/-! DEFINITION. The state: the block's ports and parameters, the outcome of the last operation, the caller's
remaining calls and the sink's log; the two error kinds; the reasons a step can stop. -/

namespace Sys2Proof.Machine

open Sys2Proof

/-! ## Input records -/

/-- The input record of SOLVE (10_state.md R17). -/
structure SolveInputs where
  variant : Variant
  targetFreq : Freq
  refFreq : Freq
  rCounter : BitVec 10
  refDoubler : Bool
  refDiv2 : Bool
  /-- 1 is the fundamental VCO frequency, 0 the divided output. -/
  feedbackSelect : BitVec 1
  /-- 0 means not supplied. -/
  bsClkDivIn : BitVec 8
  /-- 0 is low-range, 1 is high-range. -/
  bsClkMode : BitVec 1
  gcdEnable : Bool
  deriving DecidableEq, Repr

/-- The input record of ENCODE: the divider part (10_state.md R19), then the 30 configuration ports in
the order of 10_state.md R20. -/
structure EncodeInputs where
  variant : Variant
  int : Nat
  frac : Nat
  mod : Nat
  outputDivider : BitVec 8
  bsClkDiv : BitVec 8
  phaseAdjust : Bool
  prescaler : BitVec 1
  phaseValid : Bool
  phaseValue : BitVec 12
  lowNoiseSpur : BitVec 1
  muxOut : BitVec 3
  refDoubler : Bool
  refDiv2 : Bool
  rCounter : BitVec 10
  doubleBufferR4 : Bool
  /-- mA. -/
  chargePumpCurrent : Rat
  /-- ns. -/
  antibacklashPulseWidth : Rat
  pdPolarity : BitVec 1
  powerDown : Bool
  cpThreeState : Bool
  counterReset : Bool
  resyncEnable : Bool
  clkDivMode : BitVec 2
  clkDivValue : BitVec 12
  bsClkMode : BitVec 1
  chargeCancel : Bool
  feedbackSelect : BitVec 1
  vcoPowerDown : Bool
  muteTillLockDetect : Bool
  auxOutputSelect : BitVec 1
  auxOutputEnable : Bool
  /-- dBm. -/
  auxOutputPower : Rat
  outputEnable : Bool
  /-- dBm. -/
  outputPower : Rat
  ldPinMode : BitVec 2
  deriving DecidableEq, Repr

/-! ## Results and errors -/

/-- The output record of SOLVE (10_state.md R18). -/
structure DividerSolution where
  int : Nat
  mod : Nat
  frac : Nat
  outputDivider : BitVec 7
  bsClkDiv : BitVec 8
  deriving DecidableEq, Repr

/-- The six register words ENCODE returns (10_state.md R14). -/
structure RegisterWords where
  w0 : Word
  w1 : Word
  w2 : Word
  w3 : Word
  w4 : Word
  w5 : Word
  deriving DecidableEq, Repr

/-- `W[i]` (00_scope.md R9). -/
def RegisterWords.get (W : RegisterWords) (i : Fin 6) : Word :=
  match i with
  | 0 => W.w0
  | 1 => W.w1
  | 2 => W.w2
  | 3 => W.w3
  | 4 => W.w4
  | 5 => W.w5

/-- The causes of InvalidConfiguration, in the order of their codes (60_exceptions.md R151). -/
inductive ConfigCause where
  | pfdUndefined
  | freqTooLow
  | modZero
  | pfdFracLimit
  | pfdIntLimit
  | bscmLowAbove32
  | bscdMissing
  | bscFreqAbove500
  | bscFreqAbove125LowMode
  | bscFreqAbove125Base
  deriving DecidableEq, Repr

/-- The code of a cause; code 0 is not used (60_exceptions.md R151). -/
def ConfigCause.code : ConfigCause → Nat
  | .pfdUndefined => 1
  | .freqTooLow => 2
  | .modZero => 3
  | .pfdFracLimit => 4
  | .pfdIntLimit => 5
  | .bscmLowAbove32 => 6
  | .bscdMissing => 7
  | .bscFreqAbove500 => 8
  | .bscFreqAbove125LowMode => 9
  | .bscFreqAbove125Base => 10

/-- The payload of InvalidConfiguration: its cause and the offending computed value, exact
(60_exceptions.md R151, R153). -/
structure ConfigError where
  cause : ConfigCause
  recorded : Option Rat
  deriving DecidableEq, Repr

/-- The fields ENCODE validates, in the order of their codes (60_exceptions.md R152). -/
inductive FieldName where
  | int
  | frac
  | mod
  | chargePumpCurrent
  | antibacklashPulseWidth
  | auxOutputPower
  | outputPower
  | outputDivider
  deriving DecidableEq, Repr

/-- The code of a field name (60_exceptions.md R152). -/
def FieldName.code : FieldName → Nat
  | .int => 1
  | .frac => 2
  | .mod => 3
  | .chargePumpCurrent => 4
  | .antibacklashPulseWidth => 5
  | .auxOutputPower => 6
  | .outputPower => 7
  | .outputDivider => 8

/-- The allowed domain an InvalidField carries (60_exceptions.md R152; log 20). -/
inductive Domain where
  /-- 0..max. -/
  | upTo (max : Nat)
  /-- The keys of a table. -/
  | keys (ks : List Rat)
  /-- A listed set of naturals. -/
  | members (ds : List Nat)
  deriving DecidableEq, Repr

/-- The payload of InvalidField: the field name and the allowed domain (60_exceptions.md R152, R153). -/
structure FieldError where
  field : FieldName
  domain : Domain
  deriving DecidableEq, Repr

/-- The two error kinds of the block (60_exceptions.md R150). -/
inductive OpError where
  | invalidConfiguration (e : ConfigError)
  | invalidField (e : FieldError)
  deriving DecidableEq, Repr

/-- The outcome of the last completed operation (10_state.md R16; log 2): there is one status, and a
result exists only with a success. -/
inductive OpResult where
  /-- No operation has completed (10_state.md R24). -/
  | none
  | solved (sol : DividerSolution)
  | encoded (W : RegisterWords)
  | failed (e : OpError)
  deriving DecidableEq, Repr

/-! ## The state -/

/-- The state of block, caller and sink. -/
structure State where
  /-- The calls the caller has yet to make, the next one first (10_state.md R12; log 7). -/
  calls : List Command
  /-- The instantiated parameters (00_scope.md R4; log 3). -/
  config : Config
  /-- SOLVE's input ports (10_state.md R17). -/
  solveIn : SolveInputs
  /-- ENCODE's input ports (10_state.md R19, R20). -/
  encodeIn : EncodeInputs
  /-- The outcome of the last operation (10_state.md R16). -/
  last : OpResult
  /-- The words the sink has received, oldest first (42_flow.md R143). -/
  sink : List Word
  deriving DecidableEq, Repr

/-- The DividerSolution, if the last operation was a successful SOLVE. -/
def State.solution (s : State) : Option DividerSolution :=
  match s.last with
  | .solved sol => some sol
  | .none | .encoded _ | .failed _ => Option.none

/-- The RegisterWords, if the last operation was a successful ENCODE. -/
def State.words (s : State) : Option RegisterWords :=
  match s.last with
  | .encoded W => some W
  | .none | .solved _ | .failed _ => Option.none

/-- Every SOLVE port at 0: DESIGN CHOICE, ports have no reset value (70_reset_and_hazards.md R185; log 5). -/
def SolveInputs.zero : SolveInputs where
  variant := .base
  targetFreq := ⟨0, le_refl 0⟩
  refFreq := ⟨0, le_refl 0⟩
  rCounter := 0
  refDoubler := false
  refDiv2 := false
  feedbackSelect := 0
  bsClkDivIn := 0
  bsClkMode := 0
  gcdEnable := false

/-- Every ENCODE port at 0: DESIGN CHOICE, as for SOLVE (log 5). -/
def EncodeInputs.zero : EncodeInputs where
  variant := .base
  int := 0
  frac := 0
  mod := 0
  outputDivider := 0
  bsClkDiv := 0
  phaseAdjust := false
  prescaler := 0
  phaseValid := false
  phaseValue := 0
  lowNoiseSpur := 0
  muxOut := 0
  refDoubler := false
  refDiv2 := false
  rCounter := 0
  doubleBufferR4 := false
  chargePumpCurrent := 0
  antibacklashPulseWidth := 0
  pdPolarity := 0
  powerDown := false
  cpThreeState := false
  counterReset := false
  resyncEnable := false
  clkDivMode := 0
  clkDivValue := 0
  bsClkMode := 0
  chargeCancel := false
  feedbackSelect := 0
  vcoPowerDown := false
  muteTillLockDetect := false
  auxOutputSelect := 0
  auxOutputEnable := false
  auxOutputPower := 0
  outputEnable := false
  outputPower := 0
  ldPinMode := 0

/-- The machine right after reset: no operation has completed, no result exists, nothing was sent
(10_state.md R24, 70_reset_and_hazards.md R180 to R182). -/
def State.reset : State where
  calls := []
  config := Config.specValues
  solveIn := SolveInputs.zero
  encodeIn := EncodeInputs.zero
  last := .none
  sink := []

/-! ## Reasons to stop -/

/-- Stops of the step that are an access to an address that does not exist. -/
inductive Fault where
  /-- Raised by the step: the word handed on names address 6 or 7, where there is no register
  (20_memory.md R31, 30_encoding.md R60). Safe: the spec gives no such delivery any effect. -/
  | noRegisterAt (address : BitVec 3)
  deriving DecidableEq, Repr

/-- Actions the model does not offer. -/
inductive Refusal where
  /-- Raised by `exec` for an instruction without a meaning; every instruction has one. Safe. -/
  | notModelled (mnemonic : String)
  /-- Raised by the step: the word handed on has a format of neither variant; the spec's treatment is
  `refuse` (30_encoding.md R60, 93_implementation_defined.md U12). Safe. -/
  | neverProduced (why : DecodeError)
  /-- Raised by `emit` when the last operation was no successful ENCODE: there are no words
  (42_flow.md R142, 70_reset_and_hazards.md R190). Safe. -/
  | noRegisterWords
  deriving DecidableEq, Repr

end Sys2Proof.Machine
end

