-- ==== Sys2Proof/Machine/Ops.lean ====
section
/-! DEFINITION. The shared operations: exact arithmetic (00_scope.md R8), table lookup, completing an
operation, raising an error, and handing a word to the sink. -/

namespace Sys2Proof.Machine

open Sys2Proof

/-! ## Arithmetic, 00_scope.md R8 -/

/-- `floor` of a number that is not negative. -/
def natFloor (x : Rat) : Nat := x.floor.toNat

/-- `ceil` of a number that is not negative. -/
def natCeil (x : Rat) : Nat := x.ceil.toNat

/-- `round` of a number that is not negative, with the tie rule `mode`. -/
def roundNat (mode : RoundMode) (x : Rat) : Nat :=
  let f := natFloor x
  let r := x - f
  if r < 1 / 2 then f
  else if 1 / 2 < r then f + 1
  else
    match mode with
    | .halfAway => f + 1
    | .halfEven => if f % 2 = 0 then f else f + 1

/-- The exponents `k` an output divider `2^k` can have (40_divider_solver.md R73). -/
def dividerExponents : List Nat := [0, 1, 2, 3, 4, 5, 6]

/-- `log2exact(d)` where it is defined, `k` in 0..6 (00_scope.md R8, 41_register_encoder.md R108). -/
def log2Exact (d : Nat) : Option Nat := dividerExponents.find? (fun k => 2 ^ k == d)

/-- `lookup(T, v)`, and `none` where `v` is not in `T`; keys are compared exactly (00_scope.md R8). -/
def lookup {n : Nat} (t : Table n) (v : Rat) : Option (BitVec n) :=
  (t.find? (fun e => e.1 == v)).map Prod.snd

/-- The keys of a table (60_exceptions.md R152). -/
def tableKeys {n : Nat} (t : Table n) : List Rat := t.map Prod.fst

/-! ## Ending an operation -/

/-- An operation ends with the outcome `r`: this is the only status (10_state.md R16). -/
def State.complete (s : State) (r : OpResult) : State := { s with last := r }

/-- `raise`: the operation ends with a typed error, no result of any kind exists, nothing else
changes, and control is back with the caller (60_exceptions.md R161, R162). There is no return
operation (R163): the caller goes on with its next call. -/
def State.raise (s : State) (e : OpError) : State := s.complete (.failed e)

/-! ## The sink -/

/-- `Send(w)`: the sink receives one more word and returns nothing (42_flow.md R143; log 15). -/
def State.send (s : State) (w : Word) : State := { s with sink := s.sink ++ [w] }

/-- The word register address `a` of the target was last delivered, recovered from the tags of the
words sent (20_memory.md R32, 42_flow.md R144). -/
def State.delivered (s : State) (a : BitVec 3) : Option Word :=
  s.sink.reverse.find? (fun w => addressTag w == a)

/-- The 4-byte payload the transport writes for a word (20_memory.md R33, 42_flow.md R143). -/
def payload (order : ByteOrder) (w : Word) : List Byte :=
  let bytes := [w.extractLsb' 0 8, w.extractLsb' 8 8, w.extractLsb' 16 8, w.extractLsb' 24 8]
  match order with
  | .little => bytes
  | .big => bytes.reverse

/-- The bytes the device has been written, in order (42_flow.md R143). DESIGN CHOICE (log 22): the
payloads stand one after another with nothing between them; framing is open (91_not_in_source.md N18). -/
def State.deviceBytes (s : State) : List Byte :=
  s.sink.flatMap (payload s.config.transportByteOrder)

end Sys2Proof.Machine
end

