-- ==== Sys2Proof/Machine/Flags.lean ====
section
/-! DEFINITION. The two bits of word 2 that are computed, not inputs. The block has no condition codes
(10_state.md R16). -/

namespace Sys2Proof.Machine

/-- The fractional-mode flag, W[2][8]: 1 if and only if FRAC is not 0 (30_encoding.md R54). -/
def fracModeFlag (frac : Nat) : Bool := frac != 0

/-- The antibacklash flag, W[2][7]: 1 if and only if the width is not exactly 10 ns
(30_encoding.md R55). -/
def abpFlag (width : Rat) : Bool := width != 10

end Sys2Proof.Machine
end

