-- ==== Sys2Proof/Machine/Operands.lean ====
section
/-! DEFINITION. Operand forms: the raw port formats, the tie of shared ports, the optional phase value, the
table codes, and the fields of the six words from ENCODE's inputs. -/

namespace Sys2Proof.Machine

open Sys2Proof

/-! ## Port formats, 00_scope.md R4, R5 -/

/-- The frequency a raw port value denotes, `raw * FREQ_UNIT` MHz. -/
def freqOfRaw (c : Config) (raw : BitVec c.freqWidth) : Freq where
  mhz := (raw.toNat : Rat) * c.freqUnit.mhz
  nonneg := mul_nonneg (Nat.cast_nonneg _) c.freqUnit.nonneg

/-- The key a raw table-key port value denotes, `raw * KEY_UNIT`, `raw` in two's complement. -/
def keyOfRaw (c : Config) (raw : BitVec c.keyWidth) : Rat := (raw.toInt : Rat) * c.keyUnit

/-- The value of INT, MOD or FRAC on a port of SOL_W bits, where it fits (10_state.md R18; log 13). -/
def solPort (c : Config) (n : Nat) : Option (BitVec c.solWidth) :=
  if n < 2 ^ c.solWidth then some (BitVec.ofNat c.solWidth n) else none

/-- The caller drives SOLVE's frequency ports with raw values (10_state.md R17). -/
def State.driveFreqs (s : State) (target ref : BitVec s.config.freqWidth) : State :=
  { s with solveIn := { s.solveIn with
      targetFreq := freqOfRaw s.config target
      refFreq := freqOfRaw s.config ref } }

/-- The caller drives ENCODE's table-key ports with raw values (10_state.md R20). -/
def State.driveKeys (s : State) (chargePump width auxPower outPower : BitVec s.config.keyWidth) :
    State :=
  { s with encodeIn := { s.encodeIn with
      chargePumpCurrent := keyOfRaw s.config chargePump
      antibacklashPulseWidth := keyOfRaw s.config width
      auxOutputPower := keyOfRaw s.config auxPower
      outputPower := keyOfRaw s.config outPower } }

/-- The caller drives ENCODE's INT, FRAC and MOD ports, of SOL_W bits each (10_state.md R19). -/
def State.driveDivider (s : State) (int frac mod : BitVec s.config.solWidth) : State :=
  { s with encodeIn := { s.encodeIn with int := int.toNat, frac := frac.toNat, mod := mod.toNat } }

/-! ## The tie of CONFIGURE, 42_flow.md R140, R141 -/

/-- ENCODE's ports with the six shared inputs as given to SOLVE and the five values of SOLVE's result;
the other ports stay as they are. -/
def tiedInputs (p : SolveInputs) (sol : DividerSolution) (q : EncodeInputs) : EncodeInputs :=
  { q with
    variant := p.variant
    rCounter := p.rCounter
    refDoubler := p.refDoubler
    refDiv2 := p.refDiv2
    feedbackSelect := p.feedbackSelect
    bsClkMode := p.bsClkMode
    int := sol.int
    mod := sol.mod
    frac := sol.frac
    outputDivider := sol.outputDivider.setWidth 8
    bsClkDiv := sol.bsClkDiv }

/-! ## Operand assembly, 30_encoding.md R51 to R57 -/

/-- The phase value, or 1 if unset (30_encoding.md R52). -/
def phaseOperand (valid : Bool) (value : BitVec 12) : BitVec 12 := if valid then value else 1

/-- The codes of ENCODE's inputs that reach the words only as codes: the four table codes
(30_encoding.md R53) and the output divider's exponent (R56). -/
structure Codes where
  cpCurrent : BitVec 4
  abp : BitVec 1
  auxOutputPower : BitVec 2
  outputPower : BitVec 2
  dividerSelect : BitVec 3
  deriving DecidableEq, Repr

/-- 41_register_encoder.md R110. INT and FRAC have been shown to fit (30_encoding.md R51). -/
def fieldsW0 (p : EncodeInputs) : W0Fields where
  int := BitVec.ofNat 16 p.int
  frac := BitVec.ofNat 12 p.frac

/-- 41_register_encoder.md R111. -/
def fieldsW1 (p : EncodeInputs) : W1Fields where
  phaseAdjust := p.phaseAdjust
  prescaler := p.prescaler
  phase := phaseOperand p.phaseValid p.phaseValue
  mod := BitVec.ofNat 12 p.mod

/-- 41_register_encoder.md R112. -/
def fieldsW2 (p : EncodeInputs) (c : Codes) : W2Fields where
  lowNoiseSpur := p.lowNoiseSpur
  muxOut := p.muxOut
  refDoubler := p.refDoubler
  refDiv2 := p.refDiv2
  rCounter := p.rCounter
  doubleBufferR4 := p.doubleBufferR4
  cpCurrentCode := c.cpCurrent
  fracModeActive := fracModeFlag p.frac
  abpNot10ns := abpFlag p.antibacklashPulseWidth
  pdPolarity := p.pdPolarity
  powerDown := p.powerDown
  cpThreeState := p.cpThreeState
  counterReset := p.counterReset

/-- 41_register_encoder.md R113, BASE. -/
def fieldsW3Base (p : EncodeInputs) : W3BaseFields where
  resyncEnable := p.resyncEnable
  clkDivMode := p.clkDivMode
  clkDivValue := p.clkDivValue

/-- 41_register_encoder.md R113, EXT. -/
def fieldsW3Ext (p : EncodeInputs) (c : Codes) : W3ExtFields where
  bsClkMode := p.bsClkMode
  abpCode := c.abp
  chargeCancel := p.chargeCancel
  resyncEnable := p.resyncEnable
  clkDivMode := p.clkDivMode
  clkDivValue := p.clkDivValue

/-- 41_register_encoder.md R114. -/
def fieldsW4 (p : EncodeInputs) (c : Codes) : W4Fields where
  feedbackSelect := p.feedbackSelect
  dividerSelect := c.dividerSelect
  bsClkDiv := p.bsClkDiv
  vcoPowerDown := p.vcoPowerDown
  muteTillLockDetect := p.muteTillLockDetect
  auxOutputSelect := p.auxOutputSelect
  auxOutputEnable := p.auxOutputEnable
  auxOutputPowerCode := c.auxOutputPower
  outputEnable := p.outputEnable
  outputPowerCode := c.outputPower

/-- 41_register_encoder.md R115. -/
def fieldsW5 (p : EncodeInputs) : W5Fields where
  ldPinMode := p.ldPinMode

end Sys2Proof.Machine
end

