-- ==== Sys2Proof/Machine/Encode.lean ====
section
/-! DEFINITION. ENCODE, the register encoder: validation in the order of the checks, packing of the six words,
and the operation. -/

namespace Sys2Proof.Machine

open Sys2Proof

/-- The range checks of INT, FRAC and MOD, in this order (41_register_encoder.md R101 to R103). -/
def rangeCheck (p : EncodeInputs) : Option FieldError :=
  if 65535 < p.int then some ⟨.int, .upTo 65535⟩
  else if 4095 < p.frac then some ⟨.frac, .upTo 4095⟩
  else if 4095 < p.mod then some ⟨.mod, .upTo 4095⟩
  else none

/-- The output dividers ENCODE accepts (41_register_encoder.md R108). -/
def outputDividers : List Nat := [1, 2, 4, 8, 16, 32, 64]

/-- The membership checks of the four table keys and of the output divider, in this order
(41_register_encoder.md R104 to R108), with the codes they yield. -/
def lookupCodes (c : Config) (p : EncodeInputs) : Except FieldError Codes :=
  match lookup c.cpCurrentTable p.chargePumpCurrent with
  | none => .error ⟨.chargePumpCurrent, .keys (tableKeys c.cpCurrentTable)⟩
  | some cp =>
    match lookup c.abpTable p.antibacklashPulseWidth with
    | none => .error ⟨.antibacklashPulseWidth, .keys (tableKeys c.abpTable)⟩
    | some abp =>
      match lookup c.outPowerTable p.auxOutputPower with
      | none => .error ⟨.auxOutputPower, .keys (tableKeys c.outPowerTable)⟩
      | some aux =>
        match lookup c.outPowerTable p.outputPower with
        | none => .error ⟨.outputPower, .keys (tableKeys c.outPowerTable)⟩
        | some out =>
          match log2Exact p.outputDivider.toNat with
          | none => .error ⟨.outputDivider, .members outputDividers⟩
          | some k => .ok ⟨cp, abp, aux, out, BitVec.ofNat 3 k⟩

/-- Word 3: its format depends on the variant (41_register_encoder.md R113). -/
def wordThree (p : EncodeInputs) (c : Codes) : Word :=
  match p.variant with
  | .ext => packW3Ext (fieldsW3Ext p c)
  | .base => packW3Base (fieldsW3Base p)

/-- The packing of the six words (41_register_encoder.md R110 to R116). -/
def packWords (p : EncodeInputs) (c : Codes) : RegisterWords where
  w0 := packW0 (fieldsW0 p)
  w1 := packW1 (fieldsW1 p)
  w2 := packW2 (fieldsW2 p c)
  w3 := wordThree p c
  w4 := packW4 (fieldsW4 p c)
  w5 := packW5 (fieldsW5 p)

/-- The whole operation: the first error reached ends it before any word exists
(41_register_encoder.md R100). -/
def encodeOp (c : Config) (p : EncodeInputs) : Except FieldError RegisterWords :=
  match rangeCheck p with
  | some e => .error e
  | none =>
    match lookupCodes c p with
    | .error e => .error e
    | .ok codes => .ok (packWords p codes)

/-- ENCODE (41_register_encoder.md R100): reads its ports and the tables, and ends with all six words
or with InvalidField. -/
def execEncode (s : State) : Host.Outcome State Fault Refusal :=
  match encodeOp s.config s.encodeIn with
  | .ok W => .next (s.complete (.encoded W))
  | .error e => .next (s.raise (.invalidField e))

end Sys2Proof.Machine
end

