-- ==== Sys2Proof/Machine/Solve.lean ====
section
/-! DEFINITION. SOLVE, the divider solver: one definition per step of 40_divider_solver.md, and the operation. -/

namespace Sys2Proof.Machine

open Sys2Proof

/-- Step 1, the PFD frequency in MHz (40_divider_solver.md R71). -/
def pfdOf (p : SolveInputs) : Rat :=
  p.refFreq.mhz * (if p.refDoubler then 2 else 1)
    / ((if p.refDiv2 then 2 else 1) * (p.rCounter.toNat : Rat))

/-- Step 2, the exponent of the output divider: the least `k` in 0..6 with `2200 / 2^k` at most the
target; below every threshold the low-frequency policy decides (40_divider_solver.md R73). -/
def dividerExponent (policy : LowFreqPolicy) (target : Rat) : Option Nat :=
  match dividerExponents.find? (fun k => decide ((2200 : Rat) / 2 ^ k ≤ target)) with
  | some k => some k
  | none =>
    match policy with
    | .error => none
    | .cap64 => some 6

/-- Step 3, the feedback divisor N (40_divider_solver.md R74). -/
def feedbackN (p : SolveInputs) (k : Nat) (pfd : Rat) : Rat :=
  if p.feedbackSelect = 1 then p.targetFreq.mhz * 2 ^ k / pfd else p.targetFreq.mhz / pfd

/-- Step 5, GCD reduction and the MOD = 1 coercion, on (MOD, FRAC) (40_divider_solver.md R78). -/
def reduceFraction (gcdEnable : Bool) (mod frac : Nat) : Nat × Nat :=
  let g := if gcdEnable then Nat.gcd mod frac else 1
  let m := mod / g
  (if m = 1 then 2 else m, frac / g)

/-- Step 6, the PFD frequency ceilings (40_divider_solver.md R79). -/
def pfdCeiling (p : SolveInputs) (pfd : Rat) (frac : Nat) : Option ConfigError :=
  if 32 < pfd then
    if frac ≠ 0 then some ⟨.pfdFracLimit, some pfd⟩
    else
      match p.variant with
      | .ext =>
        if 90 < pfd then some ⟨.pfdIntLimit, some pfd⟩
        else if p.bsClkMode = 0 then some ⟨.bscmLowAbove32, some pfd⟩
        else none
      | .base => none
  else none

/-- Step 7, the band-select clock divider (40_divider_solver.md R80). -/
def bandSelectDivider (p : SolveInputs) (pfd : Rat) : Except ConfigError (BitVec 8) :=
  if p.bsClkDivIn = 0 then
    if p.bsClkMode = 0 then .ok (BitVec.ofNat 8 (min (natCeil (8 * pfd)) 255))
    else .error ⟨.bscdMissing, none⟩
  else .ok p.bsClkDivIn

/-- The band-select clock frequency in kHz (40_divider_solver.md R81). -/
def bandSelectFreq (pfd : Rat) (d : BitVec 8) : Rat := 1000 * pfd / (d.toNat : Rat)

/-- Step 8, the band-select clock frequency ceilings (40_divider_solver.md R81). -/
def bandSelectCeiling (p : SolveInputs) (f : Rat) : Option ConfigError :=
  if 500 < f then some ⟨.bscFreqAbove500, some f⟩
  else if 125 < f then
    match p.variant with
    | .ext => if p.bsClkMode = 0 then some ⟨.bscFreqAbove125LowMode, some f⟩ else none
    | .base => some ⟨.bscFreqAbove125Base, some f⟩
  else none

/-- Steps 6 to 9: the checks of the ceilings, then the result (40_divider_solver.md R79 to R82). -/
def finishSolve (p : SolveInputs) (pfd : Rat) (k int mod frac : Nat) :
    Except ConfigError DividerSolution :=
  match pfdCeiling p pfd frac with
  | some e => .error e
  | none =>
    match bandSelectDivider p pfd with
    | .error e => .error e
    | .ok d =>
      match bandSelectCeiling p (bandSelectFreq pfd d) with
      | some e => .error e
      | none => .ok ⟨int, mod, frac, BitVec.ofNat 7 (2 ^ k), d⟩

/-- Steps 4 and 5 on the values of steps 1 to 3, then steps 6 to 9 (40_divider_solver.md R75 to R82). -/
def solveFrom (c : Config) (p : SolveInputs) (pfd : Rat) (k : Nat) :
    Except ConfigError DividerSolution :=
  let n := feedbackN p k pfd
  let int := natFloor n
  let mod := roundNat c.roundMode (1000 * pfd)
  if mod = 0 then .error ⟨.modZero, some pfd⟩
  else
    let frac := roundNat c.roundMode ((n - int) * mod)
    let r := reduceFraction p.gcdEnable mod frac
    finishSolve p pfd k int r.1 r.2

/-- The whole operation: the first error reached ends it (40_divider_solver.md R70, R72). -/
def solveOp (c : Config) (p : SolveInputs) : Except ConfigError DividerSolution :=
  if p.rCounter = 0 ∨ p.refFreq.mhz = 0 then .error ⟨.pfdUndefined, none⟩
  else
    match dividerExponent c.lowFreqPolicy p.targetFreq.mhz with
    | none => .error ⟨.freqTooLow, some p.targetFreq.mhz⟩
    | some k => solveFrom c p (pfdOf p) k

/-- SOLVE (40_divider_solver.md R70): reads its ports and the parameters, and ends with a
DividerSolution or with InvalidConfiguration. -/
def execSolve (s : State) : Host.Outcome State Fault Refusal :=
  match solveOp s.config s.solveIn with
  | .ok sol => .next (s.complete (.solved sol))
  | .error e => .next (s.raise (.invalidConfiguration e))

end Sys2Proof.Machine
end

