-- ==== Sys2Proof/Machine/Words.lean ====
section
/-! DEFINITION. The register-word formats as instructions: each packs its fields as its rule says and hands the
word to the sink (41_register_encoder.md R110 to R115, 42_flow.md R142, R143; log 8). -/

namespace Sys2Proof.Machine

open Sys2Proof

/-- Word 0 handed on (41_register_encoder.md R110). -/
def execW0 (f : W0Fields) (s : State) : Host.Outcome State Fault Refusal :=
  .next (s.send (packW0 f))

/-- Word 1 handed on (41_register_encoder.md R111). -/
def execW1 (f : W1Fields) (s : State) : Host.Outcome State Fault Refusal :=
  .next (s.send (packW1 f))

/-- Word 2 handed on (41_register_encoder.md R112). -/
def execW2 (f : W2Fields) (s : State) : Host.Outcome State Fault Refusal :=
  .next (s.send (packW2 f))

/-- EXT's word 3 handed on (41_register_encoder.md R113). -/
def execW3Ext (f : W3ExtFields) (s : State) : Host.Outcome State Fault Refusal :=
  .next (s.send (packW3Ext f))

/-- BASE's word 3 handed on (41_register_encoder.md R113). -/
def execW3Base (f : W3BaseFields) (s : State) : Host.Outcome State Fault Refusal :=
  .next (s.send (packW3Base f))

/-- Word 4 handed on (41_register_encoder.md R114). -/
def execW4 (f : W4Fields) (s : State) : Host.Outcome State Fault Refusal :=
  .next (s.send (packW4 f))

/-- Word 5 handed on (41_register_encoder.md R115). -/
def execW5 (f : W5Fields) (s : State) : Host.Outcome State Fault Refusal :=
  .next (s.send (packW5 f))

end Sys2Proof.Machine
end

