-- ==== Sys2Proof/Machine/Dispatch.lean ====
section
/-! DEFINITION. The meaning of every instruction: one arm per constructor. -/

namespace Sys2Proof.Machine

open Sys2Proof

def exec (i : Instr) (s : State) : Host.Outcome State Fault Refusal :=
  match i with
  | .solve => Sys2Proof.Machine.execSolve s
  | .encode => Sys2Proof.Machine.execEncode s
  | .w0 f => Sys2Proof.Machine.execW0 f s
  | .w1 f => Sys2Proof.Machine.execW1 f s
  | .w2 f => Sys2Proof.Machine.execW2 f s
  | .w3Ext f => Sys2Proof.Machine.execW3Ext f s
  | .w3Base f => Sys2Proof.Machine.execW3Base f s
  | .w4 f => Sys2Proof.Machine.execW4 f s
  | .w5 f => Sys2Proof.Machine.execW5 f s

end Sys2Proof.Machine
end

