-- ==== Sys2Proof/Machine/Step.lean ====
section
/-! DEFINITION. One step: the caller's next call is taken, decoded and run. -/

namespace Sys2Proof.Machine

open Sys2Proof

/-- One step. With no call to make the block does nothing (10_state.md R12; log 7). A call is taken
from the list, decoded for the variant driven at ENCODE's port (log 10), and run; a word the block
produces for neither variant is refused (30_encoding.md R60, 93_implementation_defined.md U12; log 9). -/
def step (s : State) : Host.Outcome State Fault Refusal :=
  match s.calls with
  | [] => .next s
  | c :: rest =>
    match decode s.encodeIn.variant c with
    | .ok i => exec i { s with calls := rest }
    | .error (.unusedAddress a) => .fault (.noRegisterAt a)
    | .error e => .refused (.neverProduced e)

/-- The variant a presented command needs at ENCODE's port, put there (log 11). -/
def State.withVariantFor (s : State) (c : Command) : State :=
  match tableVariant c with
  | some v => { s with encodeIn := { s.encodeIn with variant := v } }
  | none => s

/-- The state whose next step runs the instruction with the bits `w`: its command is the first of the
calls, and for a word 3 of both formats the variant at ENCODE's port is BASE (log 11). -/
def State.withFetchWord (s : State) (nbits w : Nat) : State :=
  let c := tableCommand nbits w
  let t := s.withVariantFor c
  { t with calls := c :: t.calls }

end Sys2Proof.Machine
end

