-- ==== Sys2Proof/Machine/Sequences.lean ====
section
/-! DEFINITION. The caller's pseudo-operations CONFIGURE and EMIT (42_flow.md). -/

namespace Sys2Proof.Machine

open Sys2Proof

/-- CONFIGURE: SOLVE, then ENCODE with the shared ports tied; an error of SOLVE ends it before ENCODE
is invoked (42_flow.md R140, R141; log 18). -/
def configure (s : State) : Host.Outcome State Fault Refusal :=
  match execSolve s with
  | .next t =>
    match t.solution with
    | some sol => execEncode { t with encodeIn := tiedInputs t.solveIn sol t.encodeIn }
    | none => .next t
  | .fault r => .fault r
  | .refused r => .refused r

/-- The calls by which the caller hands on the words `W`, in the hand-off order (42_flow.md R142). -/
def emitCalls (c : Config) (W : RegisterWords) : List Command :=
  c.emitOrder.map (fun i => .word (W.get i))

/-- EMIT: the words of the last ENCODE go to the sink in the hand-off order; without words it is not
performed (42_flow.md R142, 70_reset_and_hazards.md R190; log 19). -/
def emit (s : State) : Host.Outcome State Fault Refusal :=
  match s.words with
  | some W => .next { s with sink := s.sink ++ s.config.emitOrder.map W.get }
  | none => .refused .noRegisterWords

end Sys2Proof.Machine
end

