-- ==== Sys2Proof/Safety.lean ====
section
/-! DEFINITION. The terms in which claims are made: the words the opcode table admits, the results the spec
promises, the invariant of the machine, and a relational reading of SOLVE's steps 1 to 4. -/

namespace Sys2Proof.Machine

open Sys2Proof

/-! ## Producible words -/

/-- The fixed-bit mask of word `i`'s format (30_encoding.md R43 to R48). -/
def formatMask (v : Variant) (i : Fin 6) : Word :=
  match i with
  | 0 => 0x80000007
  | 1 => 0xE0000007
  | 2 => 0xC0000007
  | 3 => match v with
    | .ext => 0xFF1A0007
    | .base => 0xFFFA0007
  | 4 => 0xFF000007
  | 5 => 0xFF3FFFFF

/-- What the fixed bits of word `i` are (30_encoding.md R43 to R48). -/
def formatMatch (i : Fin 6) : Word :=
  match i with
  | 0 => 0x00000000
  | 1 => 0x00000001
  | 2 => 0x00000002
  | 3 => 0x00000003
  | 4 => 0x00000004
  | 5 => 0x00180005

/-- The word has the format of register word `i` for the variant; divider select 7 is excluded
(30_encoding.md R47, R60). -/
def hasFormat (v : Variant) (i : Fin 6) (w : Word) : Bool :=
  w &&& formatMask v i == formatMatch i && !(i == 4 && slice w 20 3 == 7)

/-- A word of one of the formats, of either variant: the block never produces another
(30_encoding.md R60). -/
def producible (w : Word) : Bool :=
  (List.finRange 6).any (fun i => hasFormat .base i w || hasFormat .ext i w)

/-! ## What the results promise -/

/-- 40_divider_solver.md R83 (a) to (d). -/
abbrev DividerSolution.ok (sol : DividerSolution) : Prop :=
  2 ≤ sol.mod ∧ sol.frac ≤ sol.mod ∧ sol.outputDivider.toNat ∈ outputDividers
    ∧ 1 ≤ sol.bsClkDiv.toNat

/-- Each of the six words has the format of its index (30_encoding.md R42 to R48, R59). -/
abbrev RegisterWords.ok (W : RegisterWords) : Prop :=
  ∀ i : Fin 6, hasFormat .ext i (W.get i) = true

/-- A result is one the spec promises. -/
abbrev OpResult.ok : OpResult → Prop
  | .none => True
  | .solved sol => sol.ok
  | .encoded W => W.ok
  | .failed _ => True

/-- The invariant of the machine: a result that is held is one the spec promises, and the sink has
received only words the block can produce. -/
structure State.Inv (s : State) : Prop where
  result : s.last.ok
  sent : ∀ w ∈ s.sink, producible w = true

/-! ## Rounding and SOLVE's steps in the spec's own terms -/

/-- `n` is `x` rounded: the nearest natural, a tie going up under `half_away` and to the even neighbour
under `half_even` (00_scope.md R8). -/
def RoundsTo (mode : RoundMode) (x : Rat) (n : Nat) : Prop :=
  (x - 1 / 2 < n ∧ (n : Rat) < x + 1 / 2)
    ∨ ((n : Rat) = x + 1 / 2 ∧ (mode = .halfAway ∨ n % 2 = 0))
    ∨ ((n : Rat) = x - 1 / 2 ∧ mode = .halfEven ∧ n % 2 = 0)

/-- `k` is the exponent of the output divider for the target: the least one of 0..6 with
`2200 / 2^k <= target`, or 6 below every threshold under `cap64` (40_divider_solver.md R73). -/
def SelectsDivider (policy : LowFreqPolicy) (target : Rat) (k : Nat) : Prop :=
  (k ≤ 6 ∧ (2200 : Rat) / 2 ^ k ≤ target ∧ ∀ j < k, target < (2200 : Rat) / 2 ^ j)
    ∨ (policy = .cap64 ∧ k = 6 ∧ target < 2200 / 64)

/-- SOLVE gets past its steps 1 and 2 with these values of the PFD frequency and of the divider's
exponent (40_divider_solver.md R71 to R73). -/
structure SolveStarts (s : State) (pfd : Rat) (k : Nat) : Prop where
  rCounter : s.solveIn.rCounter ≠ 0
  refFreq : s.solveIn.refFreq.mhz ≠ 0
  pfdValue : pfd = s.solveIn.refFreq.mhz * (if s.solveIn.refDoubler then 2 else 1)
    / ((if s.solveIn.refDiv2 then 2 else 1) * (s.solveIn.rCounter.toNat : Rat))
  divider : SelectsDivider s.config.lowFreqPolicy s.solveIn.targetFreq.mhz k

/-- SOLVE gets past its steps 1 to 4 with these values; MOD and FRAC are those before the reduction
(40_divider_solver.md R71 to R77). -/
structure SolveReaches (s : State) (pfd : Rat) (k int mod frac : Nat) : Prop where
  starts : SolveStarts s pfd k
  modRounds : RoundsTo s.config.roundMode (1000 * pfd) mod
  modPositive : mod ≠ 0
  intFloor : ∃ n : Rat,
    n = s.solveIn.targetFreq.mhz * (if s.solveIn.feedbackSelect = 1 then 2 ^ k else 1) / pfd
      ∧ (int : Rat) ≤ n ∧ n < int + 1 ∧ RoundsTo s.config.roundMode ((n - int) * mod) frac

/-- The ceilings of step 6 are kept (40_divider_solver.md R79). -/
def PfdAllowed (p : SolveInputs) (pfd : Rat) (frac : Nat) : Prop :=
  32 < pfd → frac = 0 ∧ (p.variant = .ext → pfd ≤ 90 ∧ p.bsClkMode = 1)

/-- `d` is the band-select clock divider of step 7: the supplied one, or in low-range mode the derived
one (40_divider_solver.md R80). -/
def TakesDivider (p : SolveInputs) (pfd : Rat) (d : BitVec 8) : Prop :=
  (p.bsClkDivIn ≠ 0 ∧ d = p.bsClkDivIn)
    ∨ (p.bsClkDivIn = 0 ∧ p.bsClkMode = 0 ∧ d.toNat = min ⌈8 * pfd⌉₊ 255)

end Sys2Proof.Machine
end

