-- ==== Sys2Proof/Certificates/Slice0/Obligations.lean ====
section
/-! DEFINITION. The statements for the provers. Each docstring names the rule it formalises, or the log entry
of the model's choice it rests on. -/

open Sys2Proof Sys2Proof.Machine

/-! ## Encodings -/

/-- 30_encoding.md R43 to R48, R62: no bit of an encoding is dropped. The operation select is R40's. -/
def Obligations.DecodeInvertsEncode : Prop :=
  ∀ (v : Variant) (i : Instr), i.wf v = true → decode v (encode i) = .ok i

/-- 30_encoding.md R43 to R48, R62: a command has at most one reading, and a well-formed one. -/
def Obligations.EncodeInvertsDecode : Prop :=
  ∀ (v : Variant) (c : Command) (i : Instr),
    decode v c = .ok i → i.wf v = true ∧ encode i = c

/-- 30_encoding.md R43 to R48, R60: under either variant the decoder accepts exactly the words that the
masks of the opcode table admit for some variant. -/
def Obligations.DecoderAcceptsExactlyTheFormats : Prop :=
  ∀ (v : Variant) (w : Word),
    (∃ i, decode v (.word w) = .ok i) ↔ producible w = true

/-- Words of 95_test_vectors.md (E4, P2), read by 30_encoding.md R40, R43 to R48. -/
def Obligations.SampleWordsDecode : Prop :=
  decode .ext (.op 0) = .ok .solve ∧ decode .ext (.op 1) = .ok .encode
    ∧ decode .base (.word 0x002C8018) = .ok (.w0 ⟨89, 3⟩)
    ∧ decode .base (.word 0x08009389) = .ok (.w1 ⟨false, 1, 1, 625⟩)
    ∧ decode .ext (.word 0x006004B3) = .ok (.w3Ext ⟨0, 1, true, false, 0, 150⟩)
    ∧ decode .base (.word 0x000004B3) = .ok (.w3Base ⟨false, 0, 150⟩)
    ∧ decode .base (.word 0x00580005) = .ok (.w5 ⟨1⟩)

/-! ## The step -/

/-- 10_state.md R12: the step runs the instruction the next call decodes to, in the state without that
call. The list of calls is the model's choice (log 7). -/
def Obligations.StepRunsTheDecodedInstruction : Prop :=
  ∀ (s : State) (c : Command) (rest : List Command) (i : Instr),
    s.calls = c :: rest → decode s.encodeIn.variant c = .ok i →
      step s = exec i { s with calls := rest }

/-- 10_state.md R12: without a call nothing in the block advances; the model's choice (log 7). -/
def Obligations.NoCallNoChange : Prop :=
  ∀ s : State, s.calls = [] → step s = .next s

/-- 30_encoding.md R60, 20_memory.md R31, 93_implementation_defined.md U12: a word of no format of either
variant is not handed on; which stop is the model's choice (log 9). -/
def Obligations.NeverProducedWordsStop : Prop :=
  ∀ (s : State) (w : Word) (rest : List Command),
    s.calls = .word w :: rest → producible w = false →
      if 5 < w.toNat % 8 then step s = .fault (.noRegisterAt (addressTag w))
      else ∃ e, step s = .refused (.neverProduced e)

/-- The interface of the host: an instruction placed by withFetchWord is the one the next step runs
(the model's choice, log 11). -/
def Obligations.PlacedRowIsRun : Prop :=
  ∀ (s : State) (nbits w : Nat) (i : Instr),
    decodeTableWord nbits w = some i →
      step (s.withFetchWord nbits w) = exec i (s.withVariantFor (tableCommand nbits w))

/-! ## Reset and invariants -/

/-- 10_state.md R24, 70_reset_and_hazards.md R181: no operation has completed, no result exists,
nothing was sent. -/
def Obligations.ResetHoldsNoResult : Prop :=
  State.reset.last = .none ∧ State.reset.solution = none ∧ State.reset.words = none
    ∧ State.reset.sink = []

/-- 00_scope.md R4: the spec value of every parameter that has one; the tables of reset are maps (their
content is PRESUMED, log 4). -/
def Obligations.ResetTakesSpecValues : Prop :=
  State.reset.config.roundMode = .halfEven ∧ State.reset.config.lowFreqPolicy = .error
    ∧ State.reset.config.emitOrder = [5, 4, 3, 2, 1, 0] ∧ State.reset.config.wf = true
    ∧ State.reset.config.freqWidth = 40 ∧ State.reset.config.freqUnit.mhz = 1 / 1000000
    ∧ State.reset.config.keyWidth = 16 ∧ State.reset.config.keyUnit = 1 / 100
    ∧ State.reset.config.solWidth = 64

/-- The invariant holds at reset. -/
def Obligations.ResetMeetsTheInvariant : Prop := State.reset.Inv

/-- 40_divider_solver.md R83 (a) to (d), 30_encoding.md R42 to R48, R60: whatever is called, a result
held is one the spec promises and the sink receives only producible words. -/
def Obligations.EveryStepKeepsTheInvariant : Prop :=
  ∀ s t : State, s.Inv → step s = .next t → t.Inv

/-- 10_state.md R22, 20_memory.md R38: no run changes the parameters or the ports, and what the sink has
received stays received (42_flow.md R143). -/
def Obligations.RunsKeepParametersAndSentWords : Prop :=
  ∀ (k : Nat) (s t : State), Sys2Proof.core.run k s = .next t →
    t.config = s.config ∧ t.solveIn = s.solveIn ∧ t.encodeIn = s.encodeIn ∧ s.sink <+: t.sink

/-- 10_state.md R15, R16, 42_flow.md R143: an operation changes the outcome only, a format row adds one
word to the sink only. -/
def Obligations.InstructionFrame : Prop :=
  ∀ (i : Instr) (s t : State), exec i s = .next t →
    if i = .solve ∨ i = .encode then ∃ r, t = { s with last := r }
    else ∃ w, encode i = .word w ∧ t = { s with sink := s.sink ++ [w] }

/-! ## SOLVE -/

/-- 40_divider_solver.md R71 to R82: past every check, SOLVE ends with the solution the rules give and
changes nothing else. -/
def Obligations.SolveReturnsTheSolution : Prop :=
  ∀ (s : State) (pfd : Rat) (k int mod frac : Nat) (d : BitVec 8),
    SolveReaches s pfd k int mod frac →
    PfdAllowed s.solveIn pfd frac →
    TakesDivider s.solveIn pfd d →
    1000 * pfd / d.toNat ≤ 500 →
    (125 < 1000 * pfd / d.toNat → s.solveIn.variant = .ext ∧ s.solveIn.bsClkMode = 1) →
      let g := if s.solveIn.gcdEnable then Nat.gcd mod frac else 1
      exec .solve s = .next { s with
        last := .solved ⟨int, if mod / g = 1 then 2 else mod / g, frac / g,
          BitVec.ofNat 7 (2 ^ k), d⟩ }

/-- 40_divider_solver.md R71 to R82, the converse: a solution is returned only where every rule's
condition holds, and it is the one the rules give. -/
def Obligations.SolutionOnlyByTheRules : Prop :=
  ∀ (s t : State) (sol : DividerSolution),
    exec .solve s = .next t → t.last = .solved sol →
      ∃ (pfd : Rat) (k int mod frac : Nat) (d : BitVec 8),
        SolveReaches s pfd k int mod frac
          ∧ PfdAllowed s.solveIn pfd frac
          ∧ TakesDivider s.solveIn pfd d
          ∧ 1000 * pfd / d.toNat ≤ 500
          ∧ (125 < 1000 * pfd / d.toNat →
              s.solveIn.variant = .ext ∧ s.solveIn.bsClkMode = 1)
          ∧ sol.int = int ∧ sol.bsClkDiv = d ∧ sol.outputDivider.toNat = 2 ^ k
          ∧ (let g := if s.solveIn.gcdEnable then Nat.gcd mod frac else 1
             sol.mod = (if mod / g = 1 then 2 else mod / g) ∧ sol.frac = frac / g)

/-- 40_divider_solver.md R72. -/
def Obligations.SolveRejectsUndefinedPfd : Prop :=
  ∀ s : State, (s.solveIn.rCounter = 0 ∨ s.solveIn.refFreq.mhz = 0) →
    exec .solve s = .next { s with
      last := .failed (.invalidConfiguration ⟨.pfdUndefined, none⟩) }

/-- 40_divider_solver.md R73 under LOW_FREQ_POLICY = error: 34.375 MHz is the lowest target. -/
def Obligations.SolveRejectsLowTarget : Prop :=
  ∀ s : State, s.solveIn.rCounter ≠ 0 → s.solveIn.refFreq.mhz ≠ 0 →
    s.config.lowFreqPolicy = .error → s.solveIn.targetFreq.mhz < 34375 / 1000 →
      exec .solve s = .next { s with
        last := .failed (.invalidConfiguration ⟨.freqTooLow, some s.solveIn.targetFreq.mhz⟩) }

/-- 40_divider_solver.md R73: the table of thresholds, and the two policies below the lowest. -/
def Obligations.OutputDividerTable : Prop :=
  ∀ (policy : LowFreqPolicy) (target : Rat),
    dividerExponent policy target =
      if 2200 ≤ target then some 0
      else if 1100 ≤ target then some 1
      else if 550 ≤ target then some 2
      else if 275 ≤ target then some 3
      else if 1375 / 10 ≤ target then some 4
      else if 6875 / 100 ≤ target then some 5
      else if 34375 / 1000 ≤ target then some 6
      else if policy = .cap64 then some 6 else none

/-- 40_divider_solver.md R76: MOD rounding to 0 is MOD_ZERO. -/
def Obligations.SolveRejectsZeroMod : Prop :=
  ∀ (s : State) (pfd : Rat) (k : Nat), SolveStarts s pfd k →
    RoundsTo s.config.roundMode (1000 * pfd) 0 →
      exec .solve s = .next { s with
        last := .failed (.invalidConfiguration ⟨.modZero, some pfd⟩) }

/-- 40_divider_solver.md R79: above 32 MHz, a fraction first, then EXT's 90 MHz ceiling, then EXT's
low-range mode. -/
def Obligations.SolveRejectsPfdAboveItsCeilings : Prop :=
  ∀ (s : State) (pfd : Rat) (k int mod frac : Nat), SolveReaches s pfd k int mod frac → 32 < pfd →
    (frac ≠ 0 → exec .solve s = .next { s with
        last := .failed (.invalidConfiguration ⟨.pfdFracLimit, some pfd⟩) })
    ∧ (frac = 0 → s.solveIn.variant = .ext →
      (90 < pfd → exec .solve s = .next { s with
        last := .failed (.invalidConfiguration ⟨.pfdIntLimit, some pfd⟩) })
      ∧ (pfd ≤ 90 → s.solveIn.bsClkMode = 0 → exec .solve s = .next { s with
        last := .failed (.invalidConfiguration ⟨.bscmLowAbove32, some pfd⟩) }))

/-- 40_divider_solver.md R80: high-range mode needs a supplied divider. -/
def Obligations.SolveNeedsDividerInHighRange : Prop :=
  ∀ (s : State) (pfd : Rat) (k int mod frac : Nat), SolveReaches s pfd k int mod frac →
    PfdAllowed s.solveIn pfd frac → s.solveIn.bsClkDivIn = 0 → s.solveIn.bsClkMode = 1 →
      exec .solve s = .next { s with
        last := .failed (.invalidConfiguration ⟨.bscdMissing, none⟩) }

/-- 40_divider_solver.md R81: the band-select clock ceilings, the 500 kHz test first. -/
def Obligations.SolveRejectsBandSelectClock : Prop :=
  ∀ (s : State) (pfd : Rat) (k int mod frac : Nat) (d : BitVec 8) (f : Rat),
    SolveReaches s pfd k int mod frac → PfdAllowed s.solveIn pfd frac →
    TakesDivider s.solveIn pfd d → f = 1000 * pfd / d.toNat →
      (500 < f → exec .solve s = .next { s with
        last := .failed (.invalidConfiguration ⟨.bscFreqAbove500, some f⟩) })
      ∧ (125 < f → f ≤ 500 → s.solveIn.variant = .ext → s.solveIn.bsClkMode = 0 →
        exec .solve s = .next { s with
          last := .failed (.invalidConfiguration ⟨.bscFreqAbove125LowMode, some f⟩) })
      ∧ (125 < f → f ≤ 500 → s.solveIn.variant = .base →
        exec .solve s = .next { s with
          last := .failed (.invalidConfiguration ⟨.bscFreqAbove125Base, some f⟩) })

/-- 60_exceptions.md R150, 40_divider_solver.md R70: SOLVE ends with a solution or with
InvalidConfiguration, never InvalidField, and touches nothing but the outcome. -/
def Obligations.SolveEndsInItsOwnKind : Prop :=
  ∀ s : State, ∃ r : OpResult, exec .solve s = .next { s with last := r }
    ∧ ((∃ sol, r = .solved sol) ∨ ∃ e, r = .failed (.invalidConfiguration e))

/-- 40_divider_solver.md R83 (a) to (e). -/
def Obligations.SolutionBounds : Prop :=
  ∀ (s t : State) (sol : DividerSolution),
    exec .solve s = .next t → t.last = .solved sol →
      2 ≤ sol.mod ∧ sol.frac ≤ sol.mod ∧ sol.outputDivider.toNat ∈ [1, 2, 4, 8, 16, 32, 64]
        ∧ 1 ≤ sol.bsClkDiv.toNat ∧ sol.bsClkDiv.toNat ≤ 255
        ∧ (s.solveIn.gcdEnable = true →
            Nat.gcd sol.mod sol.frac = 1 ∨ (sol.mod = 2 ∧ sol.frac = 0))

/-- 40_divider_solver.md R83 (f), (h). -/
def Obligations.SolutionFrequencyLimits : Prop :=
  ∀ (s t : State) (sol : DividerSolution) (pfd : Rat),
    exec .solve s = .next t → t.last = .solved sol →
    pfd = s.solveIn.refFreq.mhz * (if s.solveIn.refDoubler then 2 else 1)
      / ((if s.solveIn.refDiv2 then 2 else 1) * (s.solveIn.rCounter.toNat : Rat)) →
      1000 * pfd / sol.bsClkDiv.toNat ≤ 500
        ∧ (s.solveIn.variant = .base → pfd ≤ 31875 / 1000)

/-- 40_divider_solver.md R84: with the port formats of 00_scope.md R4 the results fit their ports. -/
def Obligations.SolutionFitsItsPorts : Prop :=
  ∀ (s t : State) (sol : DividerSolution) (a b : BitVec s.config.freqWidth),
    s.config.freqWidth = 40 → s.config.freqUnit.mhz = 1 / 1000000 → s.config.solWidth = 64 →
    exec .solve (s.driveFreqs a b) = .next t → t.last = .solved sol →
      sol.int < 2 ^ 57 ∧ sol.mod < 2 ^ 32 ∧ sol.frac ≤ sol.mod
        ∧ solPort s.config sol.int = some (BitVec.ofNat _ sol.int)
        ∧ solPort s.config sol.mod = some (BitVec.ofNat _ sol.mod)
        ∧ solPort s.config sol.frac = some (BitVec.ofNat _ sol.frac)

/-- 40_divider_solver.md R78 (c): the reduction leaves the ratio FRAC / MOD as it is, where the coercion
does not act. -/
def Obligations.ReductionKeepsTheRatio : Prop :=
  ∀ (gcdEnable : Bool) (mod frac : Nat), 2 ≤ mod →
    (gcdEnable = true → mod ∣ frac → frac = 0) →
    let r := reduceFraction gcdEnable mod frac
    2 ≤ r.1 ∧ (r.2 : Rat) / r.1 = (frac : Rat) / mod

/-- 40_divider_solver.md R81 (b): a divider derived without clamping keeps the clock at 125 kHz. -/
def Obligations.DerivedDividerKeeps125 : Prop :=
  ∀ (p : SolveInputs) (pfd : Rat) (d : BitVec 8), 0 < pfd → 8 * pfd ≤ 255 →
    p.bsClkDivIn = 0 → bandSelectDivider p pfd = .ok d →
      1 ≤ d.toNat ∧ 1000 * pfd / d.toNat ≤ 125

/-- 10_state.md R10, R11, 70_reset_and_hazards.md R184: SOLVE's outcome is a function of its ports,
ROUND_MODE and LOW_FREQ_POLICY. -/
def Obligations.SolveReadsOnlyItsPorts : Prop :=
  ∀ s t : State, s.solveIn = t.solveIn → s.config.roundMode = t.config.roundMode →
    s.config.lowFreqPolicy = t.config.lowFreqPolicy →
      ∃ r, exec .solve s = .next { s with last := r } ∧ exec .solve t = .next { t with last := r }

/-! ## ENCODE -/

/-- 41_register_encoder.md R110 to R116: past every check, ENCODE ends with the six packed words and
changes nothing else. -/
def Obligations.EncodePacksTheSixWords : Prop :=
  ∀ (s : State) (cp : BitVec 4) (abp : BitVec 1) (aux out : BitVec 2) (k : Nat),
    Table.wf s.config.cpCurrentTable = true → Table.wf s.config.abpTable = true →
    Table.wf s.config.outPowerTable = true →
    s.encodeIn.int ≤ 65535 → s.encodeIn.frac ≤ 4095 → s.encodeIn.mod ≤ 4095 →
    (s.encodeIn.chargePumpCurrent, cp) ∈ s.config.cpCurrentTable →
    (s.encodeIn.antibacklashPulseWidth, abp) ∈ s.config.abpTable →
    (s.encodeIn.auxOutputPower, aux) ∈ s.config.outPowerTable →
    (s.encodeIn.outputPower, out) ∈ s.config.outPowerTable →
    s.encodeIn.outputDivider.toNat = 2 ^ k → k ≤ 6 →
      let p := s.encodeIn
      ∃ W : RegisterWords, exec .encode s = .next { s with last := .encoded W }
        ∧ W.w0.toNat = p.int * 2 ^ 15 + p.frac * 2 ^ 3
        ∧ W.w1.toNat = p.phaseAdjust.toNat * 2 ^ 28 + p.prescaler.toNat * 2 ^ 27
            + (if p.phaseValid then p.phaseValue.toNat else 1) * 2 ^ 15 + p.mod * 2 ^ 3 + 1
        ∧ W.w2.toNat = p.lowNoiseSpur.toNat * 2 ^ 29 + p.muxOut.toNat * 2 ^ 26
            + p.refDoubler.toNat * 2 ^ 25 + p.refDiv2.toNat * 2 ^ 24 + p.rCounter.toNat * 2 ^ 14
            + p.doubleBufferR4.toNat * 2 ^ 13 + cp.toNat * 2 ^ 9
            + (if p.frac = 0 then 0 else 1) * 2 ^ 8
            + (if p.antibacklashPulseWidth = 10 then 0 else 1) * 2 ^ 7
            + p.pdPolarity.toNat * 2 ^ 6 + p.powerDown.toNat * 2 ^ 5 + p.cpThreeState.toNat * 2 ^ 4
            + p.counterReset.toNat * 2 ^ 3 + 2
        ∧ W.w3.toNat = (if p.variant = .ext then p.bsClkMode.toNat * 2 ^ 23 + abp.toNat * 2 ^ 22
              + p.chargeCancel.toNat * 2 ^ 21 else 0)
            + p.resyncEnable.toNat * 2 ^ 18 + p.clkDivMode.toNat * 2 ^ 15
            + p.clkDivValue.toNat * 2 ^ 3 + 3
        ∧ W.w4.toNat = p.feedbackSelect.toNat * 2 ^ 23 + k * 2 ^ 20 + p.bsClkDiv.toNat * 2 ^ 12
            + p.vcoPowerDown.toNat * 2 ^ 11 + p.muteTillLockDetect.toNat * 2 ^ 10
            + p.auxOutputSelect.toNat * 2 ^ 9 + p.auxOutputEnable.toNat * 2 ^ 8
            + aux.toNat * 2 ^ 6 + p.outputEnable.toNat * 2 ^ 5 + out.toNat * 2 ^ 3 + 4
        ∧ W.w5.toNat = p.ldPinMode.toNat * 2 ^ 22 + 3 * 2 ^ 19 + 5

/-- 41_register_encoder.md R101 to R103, 60_exceptions.md R160: the range checks, in their order, with
the domains they carry. -/
def Obligations.EncodeChecksRanges : Prop :=
  ∀ s : State,
    (exec .encode s = .next { s with last := .failed (.invalidField ⟨.int, .upTo 65535⟩) }
      ↔ 65535 < s.encodeIn.int)
    ∧ (exec .encode s = .next { s with last := .failed (.invalidField ⟨.frac, .upTo 4095⟩) }
      ↔ s.encodeIn.int ≤ 65535 ∧ 4095 < s.encodeIn.frac)
    ∧ (exec .encode s = .next { s with last := .failed (.invalidField ⟨.mod, .upTo 4095⟩) }
      ↔ s.encodeIn.int ≤ 65535 ∧ s.encodeIn.frac ≤ 4095 ∧ 4095 < s.encodeIn.mod)

/-- 41_register_encoder.md R104 to R107, 60_exceptions.md R160: the membership checks, in their order,
with the domains they carry. -/
def Obligations.EncodeChecksTableKeys : Prop :=
  ∀ s : State, s.encodeIn.int ≤ 65535 → s.encodeIn.frac ≤ 4095 → s.encodeIn.mod ≤ 4095 →
    let cpKeys := s.config.cpCurrentTable.map Prod.fst
    let abpKeys := s.config.abpTable.map Prod.fst
    let powerKeys := s.config.outPowerTable.map Prod.fst
    (exec .encode s = .next { s with
        last := .failed (.invalidField ⟨.chargePumpCurrent, .keys cpKeys⟩) }
      ↔ s.encodeIn.chargePumpCurrent ∉ cpKeys)
    ∧ (exec .encode s = .next { s with
        last := .failed (.invalidField ⟨.antibacklashPulseWidth, .keys abpKeys⟩) }
      ↔ s.encodeIn.chargePumpCurrent ∈ cpKeys ∧ s.encodeIn.antibacklashPulseWidth ∉ abpKeys)
    ∧ (exec .encode s = .next { s with
        last := .failed (.invalidField ⟨.auxOutputPower, .keys powerKeys⟩) }
      ↔ s.encodeIn.chargePumpCurrent ∈ cpKeys ∧ s.encodeIn.antibacklashPulseWidth ∈ abpKeys
        ∧ s.encodeIn.auxOutputPower ∉ powerKeys)
    ∧ (exec .encode s = .next { s with
        last := .failed (.invalidField ⟨.outputPower, .keys powerKeys⟩) }
      ↔ s.encodeIn.chargePumpCurrent ∈ cpKeys ∧ s.encodeIn.antibacklashPulseWidth ∈ abpKeys
        ∧ s.encodeIn.auxOutputPower ∈ powerKeys ∧ s.encodeIn.outputPower ∉ powerKeys)

/-- 41_register_encoder.md R108: the last check; 0, 128 and every non-power of two fail. -/
def Obligations.EncodeChecksOutputDivider : Prop :=
  ∀ s : State, s.encodeIn.int ≤ 65535 → s.encodeIn.frac ≤ 4095 → s.encodeIn.mod ≤ 4095 →
    s.encodeIn.chargePumpCurrent ∈ s.config.cpCurrentTable.map Prod.fst →
    s.encodeIn.antibacklashPulseWidth ∈ s.config.abpTable.map Prod.fst →
    s.encodeIn.auxOutputPower ∈ s.config.outPowerTable.map Prod.fst →
    s.encodeIn.outputPower ∈ s.config.outPowerTable.map Prod.fst →
      (exec .encode s = .next { s with
          last := .failed (.invalidField ⟨.outputDivider, .members [1, 2, 4, 8, 16, 32, 64]⟩) }
        ↔ s.encodeIn.outputDivider.toNat ∉ [1, 2, 4, 8, 16, 32, 64])

/-- 60_exceptions.md R150, 41_register_encoder.md R100: ENCODE ends with six words or with
InvalidField, never InvalidConfiguration, and touches nothing but the outcome. -/
def Obligations.EncodeEndsInItsOwnKind : Prop :=
  ∀ s : State, ∃ r : OpResult, exec .encode s = .next { s with last := r }
    ∧ ((∃ W, r = .encoded W) ∨ ∃ e, r = .failed (.invalidField e))

/-- 30_encoding.md R42: for every index the word's low three bits are the index; and, by the spec's own
inference in 41_register_encoder.md R116, every produced word is below 2^31. -/
def Obligations.EncodedWordsCarryTheirAddress : Prop :=
  ∀ (s t : State) (W : RegisterWords) (i : Fin 6),
    exec .encode s = .next t → t.last = .encoded W →
      (W.get i).toNat % 8 = i.val ∧ (W.get i).toNat < 2 ^ 31

/-- 30_encoding.md R50, R58, R59: the unused bits are 0 and the reserved field of word 5 is 3. -/
def Obligations.EncodedUnusedBitsAreZero : Prop :=
  ∀ (s t : State) (W : RegisterWords),
    exec .encode s = .next t → t.last = .encoded W →
      W.w0 &&& 0x80000000 = 0 ∧ W.w1 &&& 0xE0000000 = 0 ∧ W.w2 &&& 0xC0000000 = 0
        ∧ W.w3 &&& 0xFF1A0000 = 0 ∧ W.w4 &&& 0xFF000000 = 0 ∧ W.w5 &&& 0xFF27FFF8 = 0
        ∧ W.w5 &&& 0x00180000 = 0x00180000

/-- 30_encoding.md R54, R55: the two computed bits of word 2. -/
def Obligations.EncodedComputedFlags : Prop :=
  ∀ (s t : State) (W : RegisterWords),
    exec .encode s = .next t → t.last = .encoded W →
      (W.w2.getLsbD 8 = true ↔ s.encodeIn.frac ≠ 0)
        ∧ (W.w2.getLsbD 7 = true ↔ s.encodeIn.antibacklashPulseWidth ≠ 10)

/-- 30_encoding.md R52: the phase field of word 1. -/
def Obligations.EncodedPhaseValue : Prop :=
  ∀ (s t : State) (W : RegisterWords),
    exec .encode s = .next t → t.last = .encoded W →
      W.w1.toNat / 2 ^ 15 % 2 ^ 12
        = if s.encodeIn.phaseValid then s.encodeIn.phaseValue.toNat else 1

/-- 30_encoding.md R56: the divider select of word 4 is the exponent of the output divider. -/
def Obligations.EncodedDividerSelect : Prop :=
  ∀ (s t : State) (W : RegisterWords),
    exec .encode s = .next t → t.last = .encoded W →
      s.encodeIn.outputDivider.toNat = 2 ^ (W.w4.toNat / 2 ^ 20 % 8)

/-- 41_register_encoder.md R117: the variant changes three bits of word 3 and nothing else; the errors
are the same. -/
def Obligations.VariantChangesOnlyWordThree : Prop :=
  ∀ (s : State) (v : Variant),
    let s' : State := { s with encodeIn := { s.encodeIn with variant := v } }
    (∀ e, exec .encode s = .next { s with last := .failed e }
        → exec .encode s' = .next { s' with last := .failed e })
    ∧ (∀ W, exec .encode s = .next { s with last := .encoded W } →
        ∃ w3, w3 &&& 0xFF1FFFFF = W.w3 &&& 0xFF1FFFFF ∧ (v = .base → w3 &&& 0x00E00000 = 0)
          ∧ exec .encode s' = .next { s' with last := .encoded { W with w3 := w3 } })

/-- 10_state.md R10, R11, 70_reset_and_hazards.md R186: ENCODE's outcome is a function of its ports and
the three tables; nothing in it requires that a SOLVE ever happened. -/
def Obligations.EncodeReadsOnlyItsPortsAndTables : Prop :=
  ∀ s t : State, s.encodeIn = t.encodeIn → s.config.cpCurrentTable = t.config.cpCurrentTable →
    s.config.abpTable = t.config.abpTable → s.config.outPowerTable = t.config.outPowerTable →
      ∃ r, exec .encode s = .next { s with last := r } ∧ exec .encode t = .next { t with last := r }

/-! ## Errors -/

/-- 60_exceptions.md R161, R162: after an error there is no result of any kind and nothing else has
changed. -/
def Obligations.ErrorsLeaveNoResult : Prop :=
  ∀ (i : Instr) (s t : State) (e : OpError), (i = .solve ∨ i = .encode) →
    exec i s = .next t → t.last = .failed e →
      t = { s with last := .failed e } ∧ t.solution = none ∧ t.words = none

/-- 60_exceptions.md R163, 10_state.md R10: a fresh operation behaves as if the one before it, failed or
not, had never been invoked. That nothing of a successful one stays either is the model's reading
(log 2). -/
def Obligations.OperationsForgetThePast : Prop :=
  ∀ (i j : Instr) (s t : State), (i = .solve ∨ i = .encode) → (j = .solve ∨ j = .encode) →
    exec j s = .next t → exec i t = exec i s

/-! ## The word formats as instructions (the model's choice, log 8) -/

/-- 41_register_encoder.md R110, 42_flow.md R143: word 0 is packed and handed to the sink. -/
def Obligations.WordZeroIsHandedOn : Prop :=
  ∀ (f : W0Fields) (s : State), ∃ w : Word,
    exec (.w0 f) s = .next { s with sink := s.sink ++ [w] }
      ∧ w.toNat = f.int.toNat * 2 ^ 15 + f.frac.toNat * 2 ^ 3

/-- 41_register_encoder.md R111, 42_flow.md R143: word 1 is packed and handed to the sink. -/
def Obligations.WordOneIsHandedOn : Prop :=
  ∀ (f : W1Fields) (s : State), ∃ w : Word,
    exec (.w1 f) s = .next { s with sink := s.sink ++ [w] }
      ∧ w.toNat = f.phaseAdjust.toNat * 2 ^ 28 + f.prescaler.toNat * 2 ^ 27
          + f.phase.toNat * 2 ^ 15 + f.mod.toNat * 2 ^ 3 + 1

/-- 41_register_encoder.md R112, 42_flow.md R143: word 2 is packed and handed to the sink. -/
def Obligations.WordTwoIsHandedOn : Prop :=
  ∀ (f : W2Fields) (s : State), ∃ w : Word,
    exec (.w2 f) s = .next { s with sink := s.sink ++ [w] }
      ∧ w.toNat = f.lowNoiseSpur.toNat * 2 ^ 29 + f.muxOut.toNat * 2 ^ 26
          + f.refDoubler.toNat * 2 ^ 25 + f.refDiv2.toNat * 2 ^ 24 + f.rCounter.toNat * 2 ^ 14
          + f.doubleBufferR4.toNat * 2 ^ 13 + f.cpCurrentCode.toNat * 2 ^ 9
          + f.fracModeActive.toNat * 2 ^ 8 + f.abpNot10ns.toNat * 2 ^ 7
          + f.pdPolarity.toNat * 2 ^ 6 + f.powerDown.toNat * 2 ^ 5 + f.cpThreeState.toNat * 2 ^ 4
          + f.counterReset.toNat * 2 ^ 3 + 2

/-- 41_register_encoder.md R113, 42_flow.md R143: word 3 is packed and handed to the sink, with three
more bits for EXT. -/
def Obligations.WordThreeIsHandedOn : Prop :=
  (∀ (f : W3ExtFields) (s : State), ∃ w : Word,
    exec (.w3Ext f) s = .next { s with sink := s.sink ++ [w] }
      ∧ w.toNat = f.bsClkMode.toNat * 2 ^ 23 + f.abpCode.toNat * 2 ^ 22
          + f.chargeCancel.toNat * 2 ^ 21 + f.resyncEnable.toNat * 2 ^ 18
          + f.clkDivMode.toNat * 2 ^ 15 + f.clkDivValue.toNat * 2 ^ 3 + 3)
  ∧ (∀ (f : W3BaseFields) (s : State), ∃ w : Word,
    exec (.w3Base f) s = .next { s with sink := s.sink ++ [w] }
      ∧ w.toNat = f.resyncEnable.toNat * 2 ^ 18 + f.clkDivMode.toNat * 2 ^ 15
          + f.clkDivValue.toNat * 2 ^ 3 + 3)

/-- 41_register_encoder.md R114, 42_flow.md R143: word 4 is packed and handed to the sink. -/
def Obligations.WordFourIsHandedOn : Prop :=
  ∀ (f : W4Fields) (s : State), ∃ w : Word,
    exec (.w4 f) s = .next { s with sink := s.sink ++ [w] }
      ∧ w.toNat = f.feedbackSelect.toNat * 2 ^ 23 + f.dividerSelect.toNat * 2 ^ 20
          + f.bsClkDiv.toNat * 2 ^ 12 + f.vcoPowerDown.toNat * 2 ^ 11
          + f.muteTillLockDetect.toNat * 2 ^ 10 + f.auxOutputSelect.toNat * 2 ^ 9
          + f.auxOutputEnable.toNat * 2 ^ 8 + f.auxOutputPowerCode.toNat * 2 ^ 6
          + f.outputEnable.toNat * 2 ^ 5 + f.outputPowerCode.toNat * 2 ^ 3 + 4

/-- 41_register_encoder.md R115, 42_flow.md R143: word 5 is packed and handed to the sink. -/
def Obligations.WordFiveIsHandedOn : Prop :=
  ∀ (f : W5Fields) (s : State), ∃ w : Word,
    exec (.w5 f) s = .next { s with sink := s.sink ++ [w] }
      ∧ w.toNat = f.ldPinMode.toNat * 2 ^ 22 + 3 * 2 ^ 19 + 5

/-! ## The caller's sequences -/

/-- 42_flow.md R140, R141: SOLVE, then ENCODE with the six shared ports and the five values of the
solution; a SOLVE error ends the sequence. -/
def Obligations.ConfigureIsSolveThenEncode : Prop :=
  ∀ s t : State, exec .solve s = .next t →
    (∀ sol, t.last = .solved sol →
      configure s = exec .encode { t with encodeIn := { s.encodeIn with
        variant := s.solveIn.variant
        rCounter := s.solveIn.rCounter
        refDoubler := s.solveIn.refDoubler
        refDiv2 := s.solveIn.refDiv2
        feedbackSelect := s.solveIn.feedbackSelect
        bsClkMode := s.solveIn.bsClkMode
        int := sol.int
        mod := sol.mod
        frac := sol.frac
        outputDivider := BitVec.ofNat 8 sol.outputDivider.toNat
        bsClkDiv := sol.bsClkDiv } })
    ∧ (∀ e, t.last = .failed e → configure s = .next t)

/-- 42_flow.md R140, 41_register_encoder.md R108: after a successful SOLVE, ENCODE never refuses the
output divider. -/
def Obligations.ConfigureNeverRefusesTheDivider : Prop :=
  ∀ (s t : State) (e : FieldError),
    configure s = .next t → t.last = .failed (.invalidField e) → e.field ≠ .outputDivider

/-- 42_flow.md R142: the six words go to the sink, word 5 first under EMIT_ORDER's spec value. -/
def Obligations.EmitSendsDescending : Prop :=
  ∀ (s : State) (W : RegisterWords), s.last = .encoded W →
    s.config.emitOrder = [5, 4, 3, 2, 1, 0] →
      emit s = .next { s with sink := s.sink ++ [W.w5, W.w4, W.w3, W.w2, W.w1, W.w0] }

/-- 42_flow.md R142, 30_encoding.md R62: handing on the words of a successful ENCODE one call at a time
is EMIT, for every hand-off order and whatever is driven at the ports by then (the calls are the
model's choice, log 7 and 8). -/
def Obligations.EmitRunsAsSteps : Prop :=
  ∀ (s t : State) (W : RegisterWords) (q : EncodeInputs) (rest : List Command),
    exec .encode s = .next t → t.last = .encoded W →
      Sys2Proof.core.run t.config.emitOrder.length
          { t with encodeIn := q, calls := emitCalls t.config W ++ rest }
        = emit { t with encodeIn := q, calls := rest }

/-- 42_flow.md R144 (c), 20_memory.md R32: after CONFIGURE and EMIT the sink can recover every word by
its address, whatever the hand-off order, and exactly six words were sent. -/
def Obligations.ConfigureThenEmitDelivers : Prop :=
  ∀ (s t u : State) (W : RegisterWords), s.config.wf = true →
    configure s = .next t → t.last = .encoded W → emit t = .next u →
      u.sink.length = s.sink.length + 6
        ∧ ∀ i : Fin 6, u.delivered (BitVec.ofNat 3 i.val) = some (W.get i)

/-- 42_flow.md R144 (b), 70_reset_and_hazards.md R190: after a failed CONFIGURE nothing has been sent and
there are no words to send. -/
def Obligations.NothingSentAfterFailure : Prop :=
  ∀ (s t : State) (e : OpError), configure s = .next t → t.last = .failed e →
    t.sink = s.sink ∧ emit t = .refused .noRegisterWords

/-! ## Port and transport formats -/

/-- 00_scope.md R4, R5: the values that raw ports denote, for every width and unit, and R5's four values
under the spec values. -/
def Obligations.PortFormats : Prop :=
  (∀ (s : State) (a b : BitVec s.config.freqWidth),
      (s.driveFreqs a b).solveIn.targetFreq.mhz = a.toNat * s.config.freqUnit.mhz
        ∧ (s.driveFreqs a b).solveIn.refFreq.mhz = b.toNat * s.config.freqUnit.mhz)
    ∧ (∀ (s : State) (a b c d : BitVec s.config.keyWidth),
      (s.driveKeys a b c d).encodeIn.chargePumpCurrent = a.toInt * s.config.keyUnit
        ∧ (s.driveKeys a b c d).encodeIn.antibacklashPulseWidth = b.toInt * s.config.keyUnit
        ∧ (s.driveKeys a b c d).encodeIn.auxOutputPower = c.toInt * s.config.keyUnit
        ∧ (s.driveKeys a b c d).encodeIn.outputPower = d.toInt * s.config.keyUnit)
    ∧ (∀ (s : State) (a b c : BitVec s.config.solWidth),
      (s.driveDivider a b c).encodeIn.int = a.toNat ∧ (s.driveDivider a b c).encodeIn.frac = b.toNat
        ∧ (s.driveDivider a b c).encodeIn.mod = c.toNat)
    ∧ (freqOfRaw Config.specValues 25000000).mhz = 25 ∧ keyOfRaw Config.specValues 250 = 5 / 2
    ∧ keyOfRaw Config.specValues (-400) = -4 ∧ keyOfRaw Config.specValues 1000 = 10

/-- 42_flow.md R143, 20_memory.md R33: the payload of a word is its 4 bytes, in either order. -/
def Obligations.PayloadIsTheWord : Prop :=
  ∀ w : Word, ∃ b0 b1 b2 b3 : Byte,
    payload .little w = [b0, b1, b2, b3] ∧ payload .big w = [b3, b2, b1, b0]
      ∧ w.toNat = b0.toNat + b1.toNat * 2 ^ 8 + b2.toNat * 2 ^ 16 + b3.toNat * 2 ^ 24
end

