-- ==== Sys2Proof/Laws/Bits.lean ====
section
/-! SUPPORT. Packing and slicing as arithmetic: what `place`, `slice` and `flag` are as naturals. -/

namespace Sys2Proof

/-- A placed field is its value times a power of two. -/
theorem place_toNat {n : Nat} (v : BitVec n) (lo : Nat) (h : lo + n ≤ 32) :
    (place v lo).toNat = v.toNat * 2 ^ lo := by
  have hv : v.toNat < 2 ^ n := v.isLt
  have hn : 2 ^ n ≤ 2 ^ 32 := Nat.pow_le_pow_right (by decide) (by omega)
  have hp : v.toNat * 2 ^ lo < 2 ^ 32 := by
    calc v.toNat * 2 ^ lo < 2 ^ n * 2 ^ lo :=
          Nat.mul_lt_mul_of_pos_right hv (Nat.two_pow_pos lo)
      _ = 2 ^ (lo + n) := by rw [← Nat.pow_add, Nat.add_comm]
      _ ≤ 2 ^ 32 := Nat.pow_le_pow_right (by decide) h
  simp only [place, BitVec.toNat_shiftLeft, BitVec.toNat_setWidth, Nat.shiftLeft_eq]
  rw [Nat.mod_eq_of_lt (lt_of_lt_of_le hv hn), Nat.mod_eq_of_lt hp]

/-- A placed field has zeros below its lowest bit. -/
theorem dvd_place {n : Nat} (v : BitVec n) (lo m : Nat) (h : lo + n ≤ 32) (hm : m ≤ lo) :
    2 ^ m ∣ (place v lo).toNat := by
  rw [place_toNat v lo h]
  exact Dvd.dvd.mul_left (pow_dvd_pow 2 hm) _

/-- The low zeros of an OR are those both words have. -/
theorem dvd_or_iff (x y : Word) (m : Nat) :
    2 ^ m ∣ (x ||| y).toNat ↔ 2 ^ m ∣ x.toNat ∧ 2 ^ m ∣ y.toNat := by
  simp only [Nat.dvd_iff_mod_eq_zero, BitVec.toNat_or, Nat.or_mod_two_pow, Nat.or_eq_zero_iff]

/-- OR-ing a word into the zero bits below another one's lowest bit adds it. -/
theorem or_toNat_of_dvd (x y : Word) (m : Nat) (hx : 2 ^ m ∣ x.toNat) (hy : y.toNat < 2 ^ m) :
    (x ||| y).toNat = x.toNat + y.toNat := by
  obtain ⟨a, ha⟩ := hx
  rw [BitVec.toNat_or, ha, Nat.two_pow_add_eq_or_of_lt hy]

/-- OR-ing a field into the zero bits below another word's lowest bit adds the field's value. -/
theorem or_place_toNat {n : Nat} (x : Word) (v : BitVec n) (lo : Nat) (h : lo + n ≤ 32)
    (hx : 2 ^ (lo + n) ∣ x.toNat) :
    (x ||| place v lo).toNat = x.toNat + v.toNat * 2 ^ lo := by
  have hp := place_toNat v lo h
  have hv : v.toNat < 2 ^ n := v.isLt
  rw [or_toNat_of_dvd x (place v lo) (lo + n) hx, hp]
  rw [hp, Nat.pow_add, Nat.mul_comm (2 ^ lo)]
  exact Nat.mul_lt_mul_of_pos_right hv (Nat.two_pow_pos lo)

/-- A slice is a quotient modulo a power of two. -/
theorem slice_toNat (w : Word) (lo n : Nat) :
    (slice w lo n).toNat = w.toNat / 2 ^ lo % 2 ^ n := by
  simp [slice, Nat.shiftRight_eq_div_pow]

/-- A flag is one binary digit. -/
theorem flag_eq (w : Word) (n : Nat) : flag w n = decide (w.toNat / 2 ^ n % 2 = 1) := by
  simp [flag, BitVec.getLsbD, Nat.testBit_eq_decide_div_mod_eq]

/-- A Boolean's bit as a natural. -/
@[simp] theorem bit_toNat (b : Bool) : (bit b).toNat = b.toNat := by
  cases b <;> rfl

end Sys2Proof
end

