-- ==== Sys2Proof/Laws/State.lean ====
section
/-! SUPPORT. One lemma per field per update of the state, and the views of the outcome. -/

namespace Sys2Proof.Machine

open Sys2Proof

@[simp] theorem State.complete_calls (s : State) (r : OpResult) : (s.complete r).calls = s.calls := rfl
@[simp] theorem State.complete_config (s : State) (r : OpResult) : (s.complete r).config = s.config := rfl
@[simp] theorem State.complete_solveIn (s : State) (r : OpResult) : (s.complete r).solveIn = s.solveIn := rfl
@[simp] theorem State.complete_encodeIn (s : State) (r : OpResult) :
    (s.complete r).encodeIn = s.encodeIn := rfl
@[simp] theorem State.complete_last (s : State) (r : OpResult) : (s.complete r).last = r := rfl
@[simp] theorem State.complete_sink (s : State) (r : OpResult) : (s.complete r).sink = s.sink := rfl

@[simp] theorem State.raise_calls (s : State) (e : OpError) : (s.raise e).calls = s.calls := rfl
@[simp] theorem State.raise_config (s : State) (e : OpError) : (s.raise e).config = s.config := rfl
@[simp] theorem State.raise_solveIn (s : State) (e : OpError) : (s.raise e).solveIn = s.solveIn := rfl
@[simp] theorem State.raise_encodeIn (s : State) (e : OpError) : (s.raise e).encodeIn = s.encodeIn := rfl
@[simp] theorem State.raise_last (s : State) (e : OpError) : (s.raise e).last = .failed e := rfl
@[simp] theorem State.raise_sink (s : State) (e : OpError) : (s.raise e).sink = s.sink := rfl

@[simp] theorem State.send_calls (s : State) (w : Word) : (s.send w).calls = s.calls := rfl
@[simp] theorem State.send_config (s : State) (w : Word) : (s.send w).config = s.config := rfl
@[simp] theorem State.send_solveIn (s : State) (w : Word) : (s.send w).solveIn = s.solveIn := rfl
@[simp] theorem State.send_encodeIn (s : State) (w : Word) : (s.send w).encodeIn = s.encodeIn := rfl
@[simp] theorem State.send_last (s : State) (w : Word) : (s.send w).last = s.last := rfl
@[simp] theorem State.send_sink (s : State) (w : Word) : (s.send w).sink = s.sink ++ [w] := rfl

/-- There is a solution exactly when the last operation was a successful SOLVE. -/
theorem State.solution_eq_some_iff (s : State) (sol : DividerSolution) :
    s.solution = some sol ↔ s.last = .solved sol := by
  unfold State.solution
  split <;> simp_all

/-- There are words exactly when the last operation was a successful ENCODE. -/
theorem State.words_eq_some_iff (s : State) (W : RegisterWords) :
    s.words = some W ↔ s.last = .encoded W := by
  unfold State.words
  split <;> simp_all

/-- The ports ENCODE reads under the tie of CONFIGURE: the shared ports are SOLVE's. -/
@[simp] theorem tiedInputs_variant (p : SolveInputs) (sol : DividerSolution) (q : EncodeInputs) :
    (tiedInputs p sol q).variant = p.variant := rfl
@[simp] theorem tiedInputs_int (p : SolveInputs) (sol : DividerSolution) (q : EncodeInputs) :
    (tiedInputs p sol q).int = sol.int := rfl
@[simp] theorem tiedInputs_frac (p : SolveInputs) (sol : DividerSolution) (q : EncodeInputs) :
    (tiedInputs p sol q).frac = sol.frac := rfl
@[simp] theorem tiedInputs_mod (p : SolveInputs) (sol : DividerSolution) (q : EncodeInputs) :
    (tiedInputs p sol q).mod = sol.mod := rfl
@[simp] theorem tiedInputs_outputDivider (p : SolveInputs) (sol : DividerSolution)
    (q : EncodeInputs) :
    (tiedInputs p sol q).outputDivider = sol.outputDivider.setWidth 8 := rfl
@[simp] theorem tiedInputs_bsClkDiv (p : SolveInputs) (sol : DividerSolution) (q : EncodeInputs) :
    (tiedInputs p sol q).bsClkDiv = sol.bsClkDiv := rfl

/-! Driving raw ports changes the ports driven and nothing else. -/

@[simp] theorem State.driveFreqs_calls (s : State) (a b : BitVec s.config.freqWidth) :
    (s.driveFreqs a b).calls = s.calls := rfl
@[simp] theorem State.driveFreqs_config (s : State) (a b : BitVec s.config.freqWidth) :
    (s.driveFreqs a b).config = s.config := rfl
@[simp] theorem State.driveFreqs_encodeIn (s : State) (a b : BitVec s.config.freqWidth) :
    (s.driveFreqs a b).encodeIn = s.encodeIn := rfl
@[simp] theorem State.driveFreqs_last (s : State) (a b : BitVec s.config.freqWidth) :
    (s.driveFreqs a b).last = s.last := rfl
@[simp] theorem State.driveFreqs_sink (s : State) (a b : BitVec s.config.freqWidth) :
    (s.driveFreqs a b).sink = s.sink := rfl

@[simp] theorem State.driveKeys_calls (s : State) (a b c d : BitVec s.config.keyWidth) :
    (s.driveKeys a b c d).calls = s.calls := rfl
@[simp] theorem State.driveKeys_config (s : State) (a b c d : BitVec s.config.keyWidth) :
    (s.driveKeys a b c d).config = s.config := rfl
@[simp] theorem State.driveKeys_solveIn (s : State) (a b c d : BitVec s.config.keyWidth) :
    (s.driveKeys a b c d).solveIn = s.solveIn := rfl
@[simp] theorem State.driveKeys_last (s : State) (a b c d : BitVec s.config.keyWidth) :
    (s.driveKeys a b c d).last = s.last := rfl
@[simp] theorem State.driveKeys_sink (s : State) (a b c d : BitVec s.config.keyWidth) :
    (s.driveKeys a b c d).sink = s.sink := rfl

@[simp] theorem State.driveDivider_calls (s : State) (a b c : BitVec s.config.solWidth) :
    (s.driveDivider a b c).calls = s.calls := rfl
@[simp] theorem State.driveDivider_config (s : State) (a b c : BitVec s.config.solWidth) :
    (s.driveDivider a b c).config = s.config := rfl
@[simp] theorem State.driveDivider_solveIn (s : State) (a b c : BitVec s.config.solWidth) :
    (s.driveDivider a b c).solveIn = s.solveIn := rfl
@[simp] theorem State.driveDivider_last (s : State) (a b c : BitVec s.config.solWidth) :
    (s.driveDivider a b c).last = s.last := rfl
@[simp] theorem State.driveDivider_sink (s : State) (a b c : BitVec s.config.solWidth) :
    (s.driveDivider a b c).sink = s.sink := rfl

/-- A value is on a port of SOL_W bits exactly where it fits, unchanged. -/
theorem solPort_eq_some_iff (c : Config) (n : Nat) (raw : BitVec c.solWidth) :
    solPort c n = some raw ↔ raw.toNat = n := by
  unfold solPort
  constructor
  · intro h
    split at h
    · rename_i hn
      cases h
      rw [BitVec.toNat_ofNat, Nat.mod_eq_of_lt hn]
    · cases h
  · rintro rfl
    rw [if_pos raw.isLt, BitVec.ofNat_toNat, BitVec.setWidth_eq]

end Sys2Proof.Machine
end

