-- ==== Sys2Proof/Laws/Ops.lean ====
section
/-! SUPPORT. One lemma per shared operation: everything `natFloor`, `natCeil`, `roundNat`, `lookup`,
`log2Exact` and the divider selection can do. -/

namespace Sys2Proof.Machine

open Sys2Proof

/-- `floor` is the library's. -/
theorem natFloor_eq (x : Rat) : natFloor x = ⌊x⌋₊ := by
  rw [natFloor, ← Int.floor_toNat]
  rfl

/-- `floor`: the natural below. -/
theorem natFloor_eq_iff (x : Rat) (n : Nat) (hx : 0 ≤ x) :
    natFloor x = n ↔ (n : Rat) ≤ x ∧ x < n + 1 := by
  rw [natFloor_eq, Nat.floor_eq_iff hx]

/-- `ceil` is the library's. -/
theorem natCeil_eq (x : Rat) : natCeil x = ⌈x⌉₊ := by
  rw [natCeil, ← Int.ceil_toNat]
  congr 1
  rw [Rat.ceil_eq_neg_floor_neg]
  rfl

/-- `round` is the only natural that 00_scope.md R8 allows. -/
theorem roundNat_eq_iff (mode : RoundMode) (x : Rat) (n : Nat) (hx : 0 ≤ x) :
    roundNat mode x = n ↔ RoundsTo mode x n := by
  obtain ⟨h1, h2⟩ := (natFloor_eq_iff x (natFloor x) hx).mp rfl
  generalize hf : natFloor x = f at h1 h2
  have value : RoundsTo mode x (roundNat mode x) := by
    simp only [roundNat, hf]
    unfold RoundsTo
    by_cases ha : x - f < 1 / 2
    · rw [if_pos ha]
      exact .inl ⟨by linarith, by linarith⟩
    rw [if_neg ha]
    by_cases hb : 1 / 2 < x - f
    · rw [if_pos hb]
      exact .inl ⟨by push_cast; linarith, by push_cast; linarith⟩
    rw [if_neg hb]
    have ht : x - f = 1 / 2 := le_antisymm (not_lt.mp hb) (not_lt.mp ha)
    cases mode with
    | halfAway => exact .inr (.inl ⟨by push_cast; linarith, .inl rfl⟩)
    | halfEven =>
      by_cases he : f % 2 = 0
      · simp only [he, if_true]
        exact .inr (.inr ⟨by linarith, by trivial⟩)
      · simp only [he, if_false]
        exact .inr (.inl ⟨by push_cast; linarith, .inr (by omega)⟩)
  have unique : ∀ a b : Nat, RoundsTo mode x a → RoundsTo mode x b → a ≤ b := by
    intro a b ha hb
    by_contra hlt
    have hab : ((b + 1 : Nat) : Rat) ≤ a := Nat.cast_le.mpr (by omega)
    push_cast at hab
    rcases ha with ⟨_, h⟩ | ⟨h, ha⟩ | ⟨h, _⟩ <;> rcases hb with ⟨h', _⟩ | ⟨h', _⟩ | ⟨h', hm, hb⟩ <;>
      try linarith
    have : a = b + 1 := by
      have : (a : Rat) = ((b + 1 : Nat) : Rat) := by push_cast; linarith
      exact_mod_cast this
    rcases ha with rfl | ha
    · cases hm
    · omega
  constructor
  · rintro rfl
    exact value
  · intro h
    exact le_antisymm (unique _ _ value h) (unique _ _ h value)

/-- A key is looked up to its first code. -/
theorem lookup_eq_none_iff {n : Nat} (t : Table n) (v : Rat) :
    lookup t v = none ↔ v ∉ tableKeys t := by
  simp only [lookup, tableKeys, Option.map_eq_none_iff, List.find?_eq_none, List.mem_map, not_exists]
  constructor
  · rintro h e ⟨he, rfl⟩
    exact h e he (by simp)
  · intro h e he hv
    exact h e ⟨he, by simpa using hv⟩

/-- What is looked up stands in the table. -/
theorem mem_of_lookup {n : Nat} (t : Table n) (v : Rat) (c : BitVec n) (h : lookup t v = some c) :
    (v, c) ∈ t := by
  obtain ⟨e, he, rfl⟩ := Option.map_eq_some_iff.mp h
  have hv : e.1 = v := by simpa using List.find?_some he
  have := List.mem_of_find?_eq_some he
  rwa [← hv]

/-- In a table that is a map, a lookup gives the key's code. -/
theorem lookup_of_mem {n : Nat} (t : Table n) (v : Rat) (c : BitVec n) (hw : Table.wf t = true)
    (h : (v, c) ∈ t) : lookup t v = some c := by
  simp only [Table.wf, decide_eq_true_eq] at hw
  induction t with
  | nil => cases h
  | cons e t ih =>
    simp only [List.map_cons, List.nodup_cons] at hw
    by_cases hv : e.1 = v
    · rcases List.mem_cons.mp h with rfl | h
      · simp [lookup]
      · exact absurd (List.mem_map.mpr ⟨_, h, rfl⟩) (hv ▸ hw.1)
    · rcases List.mem_cons.mp h with rfl | h
      · exact absurd rfl hv
      · have := ih h hw.2
        simpa [lookup, List.find?_cons, hv] using this

/-- The exact logarithm, where it is defined. -/
theorem log2Exact_eq_some_iff (d k : Nat) : log2Exact d = some k ↔ k ≤ 6 ∧ d = 2 ^ k := by
  constructor
  · intro h
    have hm := List.mem_of_find?_eq_some h
    have hd := List.find?_some h
    simp only [dividerExponents, List.mem_cons, List.not_mem_nil, or_false] at hm
    exact ⟨by omega, (by simpa using hd : 2 ^ k = d).symm⟩
  · rintro ⟨hk, rfl⟩
    interval_cases k <;> rfl

/-- At most one exponent is selected. -/
theorem SelectsDivider.unique {policy : LowFreqPolicy} {target : Rat} {j k : Nat}
    (hj : SelectsDivider policy target j) (hk : SelectsDivider policy target k) : j = k := by
  have low : ∀ i, i ≤ 6 → (2200 : Rat) / 64 ≤ 2200 / 2 ^ i := by
    intro i hi
    interval_cases i <;> norm_num
  rcases hj with ⟨hj6, hj, hj'⟩ | ⟨_, rfl, hj⟩ <;> rcases hk with ⟨hk6, hk, hk'⟩ | ⟨_, rfl, hk⟩
  · rcases lt_trichotomy j k with h | h | h
    · exact absurd hj (not_le.mpr (hk' j h))
    · exact h
    · exact absurd hk (not_le.mpr (hj' k h))
  · exact absurd (le_trans (low j hj6) hj) (not_le.mpr hk)
  · exact absurd (le_trans (low k hk6) hk) (not_le.mpr hj)
  · rfl

/-- What the selection answers is selected. -/
theorem selectsDivider_of_eq {policy : LowFreqPolicy} {target : Rat} {k : Nat}
    (h : dividerExponent policy target = some k) : SelectsDivider policy target k := by
  unfold dividerExponent at h
  split at h
  · rename_i j hj
    cases h
    obtain ⟨hp, i, hi, rfl, hlt⟩ := List.find?_eq_some_iff_getElem.mp hj
    have hlen : i < 7 := hi
    refine .inl ⟨?_, ?_, ?_⟩
    · interval_cases i <;> simp [dividerExponents]
    · simpa using hp
    · intro m hm
      have hmi : m < i := by interval_cases i <;> exact hm
      have := hlt m hmi
      have hval : dividerExponents[m] = m := by
        have : m < 7 := by omega
        interval_cases m <;> rfl
      rw [hval] at this
      simpa using this
  · rename_i hn
    cases policy with
    | error => cases h
    | cap64 =>
      cases h
      have := List.find?_eq_none.mp hn 6 (by decide)
      refine .inr ⟨rfl, rfl, ?_⟩
      norm_num at this ⊢
      exact this

/-- No divider qualifies exactly below 34.375 MHz under the policy `error`. -/
theorem dividerExponent_eq_none_iff (policy : LowFreqPolicy) (target : Rat) :
    dividerExponent policy target = none ↔ policy = .error ∧ target < 2200 / 64 := by
  unfold dividerExponent
  constructor
  · intro h
    split at h
    · cases h
    · rename_i hn
      cases policy with
      | error =>
        have := List.find?_eq_none.mp hn 6 (by decide)
        refine ⟨rfl, ?_⟩
        norm_num at this ⊢
        exact this
      | cap64 => cases h
  · rintro ⟨rfl, h⟩
    have : dividerExponents.find? (fun k => decide ((2200 : Rat) / 2 ^ k ≤ target)) = none := by
      refine List.find?_eq_none.mpr fun k hk => ?_
      have hk6 : k ≤ 6 := by
        simp only [dividerExponents, List.mem_cons, List.not_mem_nil, or_false] at hk
        omega
      have : (2200 : Rat) / 64 ≤ 2200 / 2 ^ k := by interval_cases k <;> norm_num
      simpa using lt_of_lt_of_le h this
    rw [this]

/-- The divider selection is 40_divider_solver.md R73's. -/
theorem dividerExponent_eq_some_iff (policy : LowFreqPolicy) (target : Rat) (k : Nat) :
    dividerExponent policy target = some k ↔ SelectsDivider policy target k := by
  refine ⟨selectsDivider_of_eq, fun h => ?_⟩
  cases hd : dividerExponent policy target with
  | some j => rw [(selectsDivider_of_eq hd).unique h]
  | none =>
    obtain ⟨rfl, hlt⟩ := (dividerExponent_eq_none_iff policy target).mp hd
    rcases h with ⟨hk6, hk, _⟩ | ⟨hp, _⟩
    · have : (2200 : Rat) / 64 ≤ 2200 / 2 ^ k := by interval_cases k <;> norm_num
      linarith
    · cases hp

end Sys2Proof.Machine
end

