-- ==== Sys2Proof/Laws/Encode.lean ====
section
/-! SUPPORT. What ENCODE can do, said once: the inversion of its checks. -/

namespace Sys2Proof.Machine

open Sys2Proof

/-- The range checks pass exactly within the three ranges. -/
theorem rangeCheck_eq_none_iff (p : EncodeInputs) :
    rangeCheck p = none ↔ p.int ≤ 65535 ∧ p.frac ≤ 4095 ∧ p.mod ≤ 4095 := by
  unfold rangeCheck
  split_ifs <;> simp <;> omega

/-- What the membership checks have passed, and the codes they yield. -/
theorem lookupCodes_eq_ok_iff (c : Config) (p : EncodeInputs) (codes : Codes) :
    lookupCodes c p = .ok codes ↔
      lookup c.cpCurrentTable p.chargePumpCurrent = some codes.cpCurrent
        ∧ lookup c.abpTable p.antibacklashPulseWidth = some codes.abp
        ∧ lookup c.outPowerTable p.auxOutputPower = some codes.auxOutputPower
        ∧ lookup c.outPowerTable p.outputPower = some codes.outputPower
        ∧ ∃ k, log2Exact p.outputDivider.toNat = some k
            ∧ codes.dividerSelect = BitVec.ofNat 3 k := by
  obtain ⟨c1, c2, c3, c4, c5⟩ := codes
  unfold lookupCodes
  cases lookup c.cpCurrentTable p.chargePumpCurrent <;>
    cases lookup c.abpTable p.antibacklashPulseWidth <;>
    cases lookup c.outPowerTable p.auxOutputPower <;>
    cases lookup c.outPowerTable p.outputPower <;>
    cases log2Exact p.outputDivider.toNat <;> simp [eq_comm]

/-- What a successful ENCODE has passed, and its words. -/
theorem encodeOp_eq_ok_iff (c : Config) (p : EncodeInputs) (W : RegisterWords) :
    encodeOp c p = .ok W ↔
      rangeCheck p = none ∧ ∃ codes, lookupCodes c p = .ok codes ∧ W = packWords p codes := by
  unfold encodeOp
  cases rangeCheck p <;> cases lookupCodes c p <;> simp [eq_comm]

/-- ENCODE ends in one of two ways and changes the outcome only. -/
theorem execEncode_eq_next_iff (s t : State) :
    execEncode s = .next t ↔
      (∃ W, encodeOp s.config s.encodeIn = .ok W ∧ t = s.complete (.encoded W))
        ∨ ∃ e, encodeOp s.config s.encodeIn = .error e ∧ t = s.raise (.invalidField e) := by
  unfold execEncode
  cases encodeOp s.config s.encodeIn <;> simp [eq_comm]

end Sys2Proof.Machine
end

