-- ==== Sys2Proof/Laws/PerInstr.lean ====
section
/-! SUPPORT. A statement about every instruction as syntax: the low bits of its encoding are the operation
select or the register address. -/

namespace Sys2Proof.Laws

open Sys2Proof

/-- The address of the word a format row encodes; none for an operation. -/
def Tagged.address : Instr → Option Nat
  | .solve => none
  | .encode => none
  | .w0 _ => some 0
  | .w1 _ => some 1
  | .w2 _ => some 2
  | .w3Ext _ => some 3
  | .w3Base _ => some 3
  | .w4 _ => some 4
  | .w5 _ => some 5

/-- 30_encoding.md R42: an encoded word carries its address in its low three bits. -/
def Tagged.Statement (i : Instr) : Prop :=
  ∀ w, encode i = .word w → Tagged.address i = some (w.toNat % 8)

/-- OR-ing the tag under fields placed from bit 3 up leaves the tag in the low three bits. -/
theorem tag_of_or (x : Word) (a : Nat) (ha : a < 8) (hx : 2 ^ 3 ∣ x.toNat) :
    (x ||| BitVec.ofNat 32 a).toNat % 8 = a := by
  have hy : (BitVec.ofNat 32 a).toNat = a := by
    rw [BitVec.toNat_ofNat, Nat.mod_eq_of_lt (by omega)]
  rw [or_toNat_of_dvd x _ 3 hx (by rw [hy]; exact ha), hy]
  obtain ⟨k, hk⟩ := hx
  omega

theorem Tagged.solve : Tagged.Statement .solve := by
  intro w h
  cases h

theorem Tagged.encode : Tagged.Statement .encode := by
  intro w h
  cases h

theorem Tagged.w0 (f : W0Fields) : Tagged.Statement (.w0 f) := by
  rintro w h
  cases h
  refine congrArg some (tag_of_or _ 0 (by decide) ?_).symm
  simp only [dvd_or_iff]
  refine ⟨?_, ?_⟩ <;> exact dvd_place _ _ _ (by decide) (by decide)

theorem Tagged.w1 (f : W1Fields) : Tagged.Statement (.w1 f) := by
  rintro w h
  cases h
  refine congrArg some (tag_of_or _ 1 (by decide) ?_).symm
  simp only [dvd_or_iff, and_assoc]
  refine ⟨?_, ?_, ?_, ?_⟩ <;> exact dvd_place _ _ _ (by decide) (by decide)

theorem Tagged.w2 (f : W2Fields) : Tagged.Statement (.w2 f) := by
  rintro w h
  cases h
  refine congrArg some (tag_of_or _ 2 (by decide) ?_).symm
  simp only [dvd_or_iff, and_assoc]
  refine ⟨?_, ?_, ?_, ?_, ?_, ?_, ?_, ?_, ?_, ?_, ?_, ?_, ?_⟩ <;>
    exact dvd_place _ _ _ (by decide) (by decide)

theorem Tagged.w3Base (f : W3BaseFields) : Tagged.Statement (.w3Base f) := by
  rintro w h
  cases h
  refine congrArg some (tag_of_or _ 3 (by decide) ?_).symm
  simp only [dvd_or_iff, and_assoc]
  refine ⟨?_, ?_, ?_⟩ <;> exact dvd_place _ _ _ (by decide) (by decide)

theorem Tagged.w3Ext (f : W3ExtFields) : Tagged.Statement (.w3Ext f) := by
  rintro w h
  cases h
  have hb := Tagged.w3Base ⟨f.resyncEnable, f.clkDivMode, f.clkDivValue⟩ _ rfl
  have hz : ∀ x y : Word, 2 ^ 3 ∣ y.toNat → (x ||| y).toNat % 8 = x.toNat % 8 := by
    intro x y hy
    have : (x ||| y).toNat % 2 ^ 3 = x.toNat % 2 ^ 3 := by
      rw [BitVec.toNat_or, Nat.or_mod_two_pow, Nat.dvd_iff_mod_eq_zero.mp hy, Nat.or_zero]
    exact this
  refine hb.trans (congrArg some ?_)
  unfold packW3Ext
  rw [hz _ _ (dvd_place _ _ _ (by decide) (by decide)),
    hz _ _ (dvd_place _ _ _ (by decide) (by decide)),
    hz _ _ (dvd_place _ _ _ (by decide) (by decide))]

theorem Tagged.w4 (f : W4Fields) : Tagged.Statement (.w4 f) := by
  rintro w h
  cases h
  refine congrArg some (tag_of_or _ 4 (by decide) ?_).symm
  simp only [dvd_or_iff, and_assoc]
  refine ⟨?_, ?_, ?_, ?_, ?_, ?_, ?_, ?_, ?_, ?_⟩ <;>
    exact dvd_place _ _ _ (by decide) (by decide)

theorem Tagged.w5 (f : W5Fields) : Tagged.Statement (.w5 f) := by
  rintro w h
  cases h
  refine congrArg some (tag_of_or _ 5 (by decide) ?_).symm
  simp only [dvd_or_iff]
  refine ⟨?_, ?_⟩ <;> exact dvd_place _ _ _ (by decide) (by decide)

end Sys2Proof.Laws
end

