-- ==== Sys2Proof/Laws/Solve.lean ====
section
/-! SUPPORT. What SOLVE can do, said once: the inversion of its steps. -/

namespace Sys2Proof.Machine

open Sys2Proof

/-- Past the guard of 40_divider_solver.md R72 the PFD frequency is positive. -/
theorem pfdOf_pos (p : SolveInputs) (hr : p.rCounter ≠ 0) (hf : p.refFreq.mhz ≠ 0) :
    0 < pfdOf p := by
  have h0 : 0 < p.refFreq.mhz := lt_of_le_of_ne p.refFreq.nonneg (Ne.symm hf)
  have h1 : (0 : Rat) < p.rCounter.toNat := by
    have : p.rCounter.toNat ≠ 0 := fun h => hr (BitVec.eq_of_toNat_eq (by simpa using h))
    exact_mod_cast Nat.pos_of_ne_zero this
  unfold pfdOf
  split_ifs <;> positivity

/-- The feedback divisor is not negative. -/
theorem feedbackN_nonneg (p : SolveInputs) (k : Nat) (pfd : Rat) (h : 0 < pfd) :
    0 ≤ feedbackN p k pfd := by
  have := p.targetFreq.nonneg
  unfold feedbackN
  split_ifs <;> positivity

/-- What a successful end of SOLVE's steps 6 to 9 has passed, and its result. -/
theorem finishSolve_eq_ok_iff (p : SolveInputs) (pfd : Rat) (k int mod frac : Nat)
    (sol : DividerSolution) :
    finishSolve p pfd k int mod frac = .ok sol ↔
      pfdCeiling p pfd frac = none ∧ ∃ d, bandSelectDivider p pfd = .ok d
        ∧ bandSelectCeiling p (bandSelectFreq pfd d) = none
        ∧ sol = ⟨int, mod, frac, BitVec.ofNat 7 (2 ^ k), d⟩ := by
  unfold finishSolve
  cases pfdCeiling p pfd frac with
  | some e => simp
  | none =>
    cases bandSelectDivider p pfd with
    | error e => simp
    | ok d =>
      cases hc : bandSelectCeiling p (bandSelectFreq pfd d) with
      | some e => simp [hc]
      | none => simp [hc, eq_comm]

/-- The ceilings of step 6 are kept exactly as 40_divider_solver.md R79 says. -/
theorem pfdCeiling_eq_none_iff (p : SolveInputs) (pfd : Rat) (frac : Nat) :
    pfdCeiling p pfd frac = none ↔ PfdAllowed p pfd frac := by
  have hm : p.bsClkMode = 0 ∨ p.bsClkMode = 1 := by
    generalize p.bsClkMode = b
    revert b
    decide
  unfold pfdCeiling PfdAllowed
  cases p.variant <;> rcases hm with hm | hm <;> simp [hm] <;> grind

/-- The divider of step 7 is the one 40_divider_solver.md R80 takes. -/
theorem bandSelectDivider_eq_ok_iff (p : SolveInputs) (pfd : Rat) (d : BitVec 8) :
    bandSelectDivider p pfd = .ok d ↔ TakesDivider p pfd d := by
  have hv : ∀ n : Nat, BitVec.ofNat 8 (min n 255) = d ↔ d.toNat = min n 255 := by
    intro n
    constructor
    · rintro rfl
      rw [BitVec.toNat_ofNat, Nat.mod_eq_of_lt (by omega)]
    · intro h
      rw [← h, BitVec.ofNat_toNat, BitVec.setWidth_eq]
  unfold bandSelectDivider TakesDivider
  rw [natCeil_eq]
  by_cases h0 : p.bsClkDivIn = 0
  · by_cases h1 : p.bsClkMode = 0
    · rw [if_pos h0, if_pos h1, Except.ok.injEq, hv]
      simp [h0, h1]
    · rw [if_pos h0, if_neg h1]
      simp only [reduceCtorEq, h1, false_and, and_false, ne_eq, h0, not_true_eq_false, or_self]
  · rw [if_neg h0, Except.ok.injEq]
    simp only [h0, ne_eq, not_false_eq_true, true_and, false_and, or_false]
    exact eq_comm

/-- The ceilings of step 8 are kept exactly as 40_divider_solver.md R81 says. -/
theorem bandSelectCeiling_eq_none_iff (p : SolveInputs) (f : Rat) :
    bandSelectCeiling p f = none ↔
      f ≤ 500 ∧ (125 < f → p.variant = .ext ∧ p.bsClkMode = 1) := by
  have hm : p.bsClkMode = 0 ∨ p.bsClkMode = 1 := by
    generalize p.bsClkMode = b
    revert b
    decide
  unfold bandSelectCeiling
  cases p.variant <;> rcases hm with hm | hm <;> simp [hm] <;> grind

/-- What a successful SOLVE has passed, and its result. -/
theorem solveOp_eq_ok_iff (c : Config) (p : SolveInputs) (sol : DividerSolution) :
    solveOp c p = .ok sol ↔
      p.rCounter ≠ 0 ∧ p.refFreq.mhz ≠ 0 ∧
        ∃ k, dividerExponent c.lowFreqPolicy p.targetFreq.mhz = some k
          ∧ solveFrom c p (pfdOf p) k = .ok sol := by
  unfold solveOp
  by_cases hg : p.rCounter = 0 ∨ p.refFreq.mhz = 0
  · rw [if_pos hg]
    simp only [reduceCtorEq, false_iff]
    rintro ⟨h1, h2, _⟩
    exact hg.elim h1 h2
  · rw [if_neg hg]
    rw [not_or] at hg
    obtain ⟨h1, h2⟩ := hg
    cases dividerExponent c.lowFreqPolicy p.targetFreq.mhz with
    | none => simp
    | some k => exact ⟨fun h => ⟨h1, h2, k, rfl, h⟩, fun ⟨_, _, _, hk, h⟩ => by cases hk; exact h⟩

/-- What a successful end of SOLVE's steps 4 to 9 has passed. -/
theorem solveFrom_eq_ok_iff (c : Config) (p : SolveInputs) (pfd : Rat) (k : Nat)
    (sol : DividerSolution) :
    solveFrom c p pfd k = .ok sol ↔
      ∃ int mod frac, int = natFloor (feedbackN p k pfd)
        ∧ mod = roundNat c.roundMode (1000 * pfd) ∧ mod ≠ 0
        ∧ frac = roundNat c.roundMode ((feedbackN p k pfd - int) * mod)
        ∧ finishSolve p pfd k int (reduceFraction p.gcdEnable mod frac).1
            (reduceFraction p.gcdEnable mod frac).2 = .ok sol := by
  unfold solveFrom
  by_cases hm : roundNat c.roundMode (1000 * pfd) = 0 <;> simp [hm]

/-- SOLVE ends in one of two ways and changes the outcome only. -/
theorem execSolve_eq_next_iff (s t : State) :
    execSolve s = .next t ↔
      (∃ sol, solveOp s.config s.solveIn = .ok sol ∧ t = s.complete (.solved sol))
        ∨ ∃ e, solveOp s.config s.solveIn = .error e
            ∧ t = s.raise (.invalidConfiguration e) := by
  unfold execSolve
  cases solveOp s.config s.solveIn <;> simp [eq_comm]

end Sys2Proof.Machine
end

