-- ==== Sys2Proof/Laws/Step.lean ====
section
/-! SUPPORT. What one step can do, said once. -/

namespace Sys2Proof.Machine

open Sys2Proof

/-- A step that goes on either had no call to make, or ran the instruction its first call decodes to. -/
theorem step_eq_next_iff (s t : State) :
    step s = .next t ↔
      (s.calls = [] ∧ t = s)
        ∨ ∃ c rest i, s.calls = c :: rest ∧ decode s.encodeIn.variant c = .ok i
            ∧ exec i { s with calls := rest } = .next t := by
  unfold step
  cases s.calls with
  | nil => simp [eq_comm]
  | cons c rest =>
    cases h : decode s.encodeIn.variant c with
    | ok i => simp [h]
    | error e => cases e <;> simp [h]

/-- Putting the variant in place leaves the calls as they are. -/
@[simp] theorem State.withVariantFor_calls (s : State) (c : Command) :
    (s.withVariantFor c).calls = s.calls := by
  unfold State.withVariantFor
  split <;> rfl

/-- A placed command is the next call. -/
@[simp] theorem State.withFetchWord_calls (s : State) (nbits w : Nat) :
    (s.withFetchWord nbits w).calls = tableCommand nbits w :: s.calls := by
  simp [State.withFetchWord]

/-- A placed command disturbs nothing but the calls and the variant it needs. -/
@[simp] theorem State.withFetchWord_encodeIn (s : State) (nbits w : Nat) :
    (s.withFetchWord nbits w).encodeIn = (s.withVariantFor (tableCommand nbits w)).encodeIn := rfl

end Sys2Proof.Machine
end

