-- ==== Sys2Proof/Tests/Slice0.lean ====
section
/-! SUPPORT. Tests: ill-formed terms refused, words written out from the spec's encodings, vectors of
95_test_vectors.md, and for each obligation with hypotheses a witness that meets them. -/

namespace Sys2Proof.Tests

-- One thread: each kernel evaluation below would hold a thread and its stack while it waits.
set_option Elab.async false

open Sys2Proof Sys2Proof.Machine

/-! ## Builders -/

/-- A frequency of `n / d` MHz. -/
def mhz (n : Nat) (d : Nat := 1) : Freq :=
  ⟨mkRat n d, by rw [Rat.mkRat_eq_div]; positivity⟩

/-- SOLVE's ports of a vector with r_counter 1, the reference direct and GCD reduction on. -/
def ports (v : Variant) (target ref : Freq) (div : BitVec 8) (mode : BitVec 1) : SolveInputs :=
  ⟨v, target, ref, 1, false, false, 1, div, mode, true⟩

/-- The state with these SOLVE ports. -/
def drive (p : SolveInputs) : State := { State.reset with solveIn := p }

/-- CFG0 of 95_test_vectors.md. -/
def cfg0 : EncodeInputs where
  variant := .ext
  int := 100
  frac := 0
  mod := 2
  outputDivider := 1
  bsClkDiv := 200
  phaseAdjust := false
  prescaler := 1
  phaseValid := false
  phaseValue := 0
  lowNoiseSpur := 0
  muxOut := 0
  refDoubler := false
  refDiv2 := false
  rCounter := 1
  doubleBufferR4 := false
  chargePumpCurrent := mkRat 25 10
  antibacklashPulseWidth := 10
  pdPolarity := 1
  powerDown := false
  cpThreeState := false
  counterReset := false
  resyncEnable := false
  clkDivMode := 0
  clkDivValue := 150
  bsClkMode := 0
  chargeCancel := false
  feedbackSelect := 1
  vcoPowerDown := false
  muteTillLockDetect := false
  auxOutputSelect := 0
  auxOutputEnable := false
  auxOutputPower := -4
  outputEnable := true
  outputPower := 5
  ldPinMode := 1

/-- The state with these ENCODE ports. -/
def enc (p : EncodeInputs) : State := { State.reset with encodeIn := p }

/-! ## Ill-formed terms are refused -/

theorem test_wf_plain_word_three_is_base : Instr.wf .base (.w3Ext ⟨0, 0, false, true, 0, 0⟩) = false := by
  decide

theorem test_wf_base_word_three_is_not_ext : Instr.wf .ext (.w3Base ⟨false, 0, 0⟩) = false := by decide

theorem test_wf_divider_select_seven : Instr.wf .ext (.w4 ⟨0, 7, 0, false, false, 0, false, 0, false, 0⟩) = false := by
  decide

theorem test_wf_table_with_key_twice : Table.wf (n := 1) [(10, 0), (6, 1), (10, 1)] = false := by
  decide +kernel

theorem test_wf_order_without_word_zero :
    Config.wf { Config.specValues with emitOrder := [5, 4, 3, 2, 1, 1] } = false := by decide +kernel

/-! ## Words written out from the encodings (30_encoding.md R40, R43 to R48) -/

theorem test_decode_solve : decode .base (.op 0) = .ok .solve := by decide

theorem test_decode_encode : decode .base (.op 1) = .ok .encode := by decide

theorem test_decode_w0 :   -- INT 89 at 30:15, FRAC 3 at 14:3, tag 0; E4
    decodeTableWord 32 0b0_0000000001011001_000000000011_000 = some (.w0 ⟨89, 3⟩) := by decide

theorem test_decode_w1 :   -- phase adjust 28, prescaler 27, phase 26:15, MOD 14:3
    decodeTableWord 32 0b000_1_0_000000000111_001001110001_001 = some (.w1 ⟨true, 0, 7, 625⟩) := by decide

theorem test_decode_w2 :   -- P2's word 2: mux_out 6, R 1, current code 7, fractional and antibacklash flags
    decodeTableWord 32 0b00_0_110_0_0_0000000001_0_0111_1_1_1_0_0_0_010
      = some (.w2 ⟨0, 6, false, false, 1, false, 7, true, true, 1, false, false, false⟩) := by decide

theorem test_decode_w3_ext :   -- bits 23, 22, 21 are mode, width code, charge cancel
    decodeTableWord 32 0b00000000_0_1_1_00_0_0_10_000010010110_011
      = some (.w3Ext ⟨0, 1, true, false, 2, 150⟩) := by decide

theorem test_decode_w3_base :
    decodeTableWord 32 0b0000000000000_1_0_01_000010010110_011 = some (.w3Base ⟨true, 1, 150⟩) := by decide

theorem test_decode_w4 :   -- feedback 1, select 6, divider 200, aux power 2, output on, power 3
    decodeTableWord 32 0b00000000_1_110_11001000_1_0_1_0_10_1_11_100
      = some (.w4 ⟨1, 6, 200, true, false, 1, false, 2, true, 3⟩) := by decide

theorem test_decode_w5 :   -- pin mode 1 at 23:22, the constant 3 at 20:19
    decodeTableWord 32 0b00000000_01_0_11_0000000000000000_101 = some (.w5 ⟨1⟩) := by decide

theorem test_decode_address_six : decodeTableWord 32 6 = none := by decide

theorem test_decode_unused_bit : decodeTableWord 32 0x80000000 = none := by decide

theorem test_decode_ext_word_three_while_base_is_driven :   -- E6's word 3 and its two lowest EXT-only bits alone
    decode .base (.word 0x00E5FFFB) = .ok (.w3Ext ⟨1, 1, true, true, 3, 4095⟩)
      ∧ decode .base (.word 0x00400003) = .ok (.w3Ext ⟨0, 1, false, false, 0, 0⟩)
      ∧ decode .base (.word 0x00200003) = .ok (.w3Ext ⟨0, 0, true, false, 0, 0⟩) := by decide

theorem test_decode_word_three_unused_bit : decode .base (.word 0x00100003) = .error (.unusedBitSet 3) := by
  decide

theorem test_decode_divider_select_seven : decodeTableWord 32 0x00700004 = none := by decide

theorem test_decode_reserved_field : decodeTableWord 32 0x00100005 = none := by decide

/-! ## Vectors of 95_test_vectors.md -/

/-- S2, also by hand in its part 6. -/
def s2 : SolveInputs := ports .ext (mhz 35) (mhz 25) 0 0

theorem test_solve_s2 : solveOp Config.specValues s2 = .ok ⟨89, 5, 3, 64, 200⟩ := by decide +kernel

theorem test_solve_s44 :
    solveOp Config.specValues (ports .ext (mhz 2200) (mhz 50) 0 0)
      = .error ⟨.bscmLowAbove32, some 50⟩ := by decide +kernel

/-- The inputs of E4. -/
def e4 : EncodeInputs := { cfg0 with int := 89, mod := 5, frac := 3, outputDivider := 64 }

/-- The words of E4. -/
def e4Words : RegisterWords :=
  ⟨0x002C8018, 0x08008029, 0x00004F42, 0x000004B3, 0x00EC803C, 0x00580005⟩

theorem test_encode_e4 : encodeOp Config.specValues e4 = .ok e4Words := by decide +kernel

theorem test_encode_e40 :   -- the three EXT-only bits
    encodeOp Config.specValues
      { cfg0 with bsClkMode := 1, chargeCancel := true, antibacklashPulseWidth := 6 }
        = .ok ⟨0x00320000, 0x08008011, 0x00004EC2, 0x00E004B3, 0x008C803C, 0x00580005⟩ := by
  decide +kernel

/-! ## One step on a placed row -/

/-- The state a step or a sequence answers; the reset state where it stops. -/
def after : Host.Outcome State Fault Refusal → State
  | .next t => t
  | .fault _ => State.reset
  | .refused _ => State.reset

theorem test_step_solve :   -- S2
    (after (step ((drive s2).withFetchWord 1 0))).last = .solved ⟨89, 5, 3, 64, 200⟩ := by
  decide +kernel

theorem test_step_encode :   -- E4
    (after (step ((enc e4).withFetchWord 1 1))).last = .encoded e4Words := by decide +kernel

theorem test_step_w0 : (after (step (State.reset.withFetchWord 32 0x002C8018))).sink = [0x002C8018] := by
  decide +kernel

theorem test_step_w1 : (after (step (State.reset.withFetchWord 32 0x08008029))).sink = [0x08008029] := by
  decide +kernel

theorem test_step_w2 : (after (step (State.reset.withFetchWord 32 0x3FFFFFFA))).sink = [0x3FFFFFFA] := by
  decide +kernel

theorem test_step_w3_ext :   -- E6
    (after (step (State.reset.withFetchWord 32 0x00E5FFFB))).sink = [0x00E5FFFB] := by decide +kernel

theorem test_step_w3_base :   -- E7
    (after (step (State.reset.withFetchWord 32 0x0005FFFB))).sink = [0x0005FFFB] := by decide +kernel

theorem test_step_w4 : (after (step (State.reset.withFetchWord 32 0x00EFFFFC))).sink = [0x00EFFFFC] := by
  decide +kernel

theorem test_step_w5 : (after (step (State.reset.withFetchWord 32 0x00D80005))).sink = [0x00D80005] := by
  decide +kernel

theorem test_configure_p4 :   -- P4 steps 1 and 2: FRAC is checked before MOD
    (after (configure { State.reset with
      solveIn := { s2 with gcdEnable := false }, encodeIn := cfg0 })).last
        = .failed (.invalidField ⟨.frac, .upTo 4095⟩) := by decide +kernel

/-! ## Witnesses of the hypotheses -/

/-- A SOLVE that succeeds, as the obligations read it. -/
theorem exec_solve_ok {s : State} {sol : DividerSolution}
    (h : solveOp s.config s.solveIn = .ok sol) :
    exec .solve s = .next { s with last := .solved sol } :=
  (execSolve_eq_next_iff _ _).mpr (.inl ⟨sol, h, rfl⟩)

/-- A SOLVE that fails, as the obligations read it. -/
theorem exec_solve_error {s : State} {e : ConfigError}
    (h : solveOp s.config s.solveIn = .error e) :
    exec .solve s = .next { s with last := .failed (.invalidConfiguration e) } :=
  (execSolve_eq_next_iff _ _).mpr (.inr ⟨e, h, rfl⟩)

/-- An ENCODE that succeeds, as the obligations read it. -/
theorem exec_encode_ok {s : State} {W : RegisterWords}
    (h : encodeOp s.config s.encodeIn = .ok W) :
    exec .encode s = .next { s with last := .encoded W } :=
  (execEncode_eq_next_iff _ _).mpr (.inl ⟨W, h, rfl⟩)

/-- An ENCODE that fails, as the obligations read it. -/
theorem exec_encode_error {s : State} {e : FieldError}
    (h : encodeOp s.config s.encodeIn = .error e) :
    exec .encode s = .next { s with last := .failed (.invalidField e) } :=
  (execEncode_eq_next_iff _ _).mpr (.inr ⟨e, h, rfl⟩)

theorem test_witness_DecodeInvertsEncode :
    Instr.wf .ext (.w3Ext ⟨0, 0, false, true, 3, 4095⟩) = true
      ∧ Instr.wf .base (.w3Ext ⟨1, 0, false, true, 3, 4095⟩) = true
      ∧ Instr.wf .base (.w3Base ⟨true, 3, 4095⟩) = true
      ∧ Instr.wf .ext (.w4 ⟨1, 6, 255, true, true, 1, true, 3, true, 3⟩) = true := by decide

theorem test_witness_EncodeInvertsDecode :
    decode .base (.word 0x00180005) = .ok (.w5 ⟨0⟩) := by decide

theorem test_witness_StepRunsTheDecodedInstruction :
    (State.reset.withFetchWord 1 1).calls = [.op 1]
      ∧ decode (State.reset.withFetchWord 1 1).encodeIn.variant (.op 1) = .ok .encode := by decide

theorem test_witness_NoCallNoChange : State.reset.calls = [] := rfl

theorem test_witness_NeverProducedWordsStop_address :
    (State.reset.withFetchWord 32 6).calls = [.word 6]
      ∧ producible 6 = false
      ∧ 5 < (6 : Word).toNat % 8 := by decide

theorem test_witness_NeverProducedWordsStop_format :
    (State.reset.withFetchWord 32 5).calls = [.word 5]
      ∧ producible 5 = false
      ∧ ¬ 5 < (5 : Word).toNat % 8 := by decide

theorem test_witness_PlacedRowIsRun :
    decodeTableWord 1 0 = some .solve
      ∧ decodeTableWord 32 0x00200003 = some (.w3Ext ⟨0, 0, true, false, 0, 0⟩)
      ∧ decodeTableWord 32 0x00000003 = some (.w3Base ⟨false, 0, 0⟩) := by decide

/-- A state with a result and a sent word, about to call SOLVE. -/
def busy : State :=
  { drive s2 with calls := [.op 0], last := .encoded e4Words, sink := [0x00580005] }

theorem e4Words_ok : e4Words.ok := by decide +kernel

theorem busy_inv : busy.Inv where
  result := e4Words_ok
  sent := fun w hw => by
    rw [List.mem_singleton.mp hw]
    decide +kernel

theorem busy_step :
    step busy = .next { busy with calls := [], last := .solved ⟨89, 5, 3, 64, 200⟩ } :=
  (step_eq_next_iff _ _).mpr (.inr ⟨.op 0, [], .solve, rfl, rfl, exec_solve_ok test_solve_s2⟩)

theorem test_witness_EveryStepKeepsTheInvariant :
    busy.Inv ∧ step busy = .next { busy with calls := [], last := .solved ⟨89, 5, 3, 64, 200⟩ } :=
  ⟨busy_inv, busy_step⟩

theorem test_witness_RunsKeepParametersAndSentWords :
    Sys2Proof.core.run 1 busy
      = .next { busy with calls := [], last := .solved ⟨89, 5, 3, 64, 200⟩ } := by
  change Host.Core.run ⟨State, Fault, Refusal, step, State.reset⟩ 1 busy = _
  simp only [Host.Core.run, busy_step]
  rfl

theorem test_witness_InstructionFrame_operation :
    exec .solve (drive s2) = .next { drive s2 with last := .solved ⟨89, 5, 3, 64, 200⟩ } :=
  exec_solve_ok test_solve_s2

theorem test_witness_InstructionFrame_format :
    exec (.w5 ⟨1⟩) State.reset = .next { State.reset with sink := [packW5 ⟨1⟩] } := rfl

/-- SOLVE's values in S2 before the reduction. -/
theorem reaches_s2 : SolveReaches (drive s2) 25 6 89 25000 15000 where
  starts := ⟨by decide, by decide +kernel, by decide +kernel, .inl (by decide +kernel)⟩
  modRounds := .inl (by decide +kernel)
  modPositive := by decide
  intFloor := ⟨_, rfl, by decide +kernel, by decide +kernel, .inl (by decide +kernel)⟩

theorem test_witness_SolveReturnsTheSolution :
    SolveReaches (drive s2) 25 6 89 25000 15000 ∧ PfdAllowed s2 25 15000 ∧ TakesDivider s2 25 200
      ∧ 1000 * (25 : Rat) / (200 : BitVec 8).toNat ≤ 500
      ∧ (125 < 1000 * (25 : Rat) / (200 : BitVec 8).toNat →
          s2.variant = .ext ∧ s2.bsClkMode = 1) := by
  refine ⟨reaches_s2, ?_, .inr ⟨rfl, rfl, ?_⟩, by decide +kernel, by decide +kernel⟩
  · intro h
    exact absurd h (by decide +kernel)
  · rw [show ⌈8 * (25 : Rat)⌉₊ = 200 from by norm_num]
    rfl

/-- S63: the band-select clock is exactly 500 kHz, in EXT's high-range mode. -/
def s63 : SolveInputs := ports .ext (mhz 2210) (mhz 32) 64 1

/-- SOLVE's values in S63 before the reduction. -/
theorem reaches_s63 : SolveReaches (drive s63) 32 0 69 32000 2000 where
  starts := ⟨by decide, by decide +kernel, by decide +kernel, .inl (by decide +kernel)⟩
  modRounds := .inl (by decide +kernel)
  modPositive := by decide
  intFloor := ⟨_, rfl, by decide +kernel, by decide +kernel, .inl (by decide +kernel)⟩

theorem test_witness_SolveReturnsTheSolution_at_500_kHz :
    SolveReaches (drive s63) 32 0 69 32000 2000 ∧ PfdAllowed s63 32 2000 ∧ TakesDivider s63 32 64
      ∧ 1000 * (32 : Rat) / (64 : BitVec 8).toNat ≤ 500
      ∧ (125 < 1000 * (32 : Rat) / (64 : BitVec 8).toNat →
          s63.variant = .ext ∧ s63.bsClkMode = 1) :=
  ⟨reaches_s63, fun h => absurd h (by decide +kernel), .inl (by decide), by decide +kernel,
    by decide +kernel⟩

theorem test_witness_SolutionOnlyByTheRules :   -- and of SolutionBounds
    exec .solve (drive s2) = .next { drive s2 with last := .solved ⟨89, 5, 3, 64, 200⟩ }
      ∧ s2.gcdEnable = true :=
  ⟨exec_solve_ok test_solve_s2, rfl⟩

theorem test_witness_SolveRejectsUndefinedPfd :   -- S24, S25
    { s2 with rCounter := 0 }.rCounter = 0 ∧ { s2 with refFreq := mhz 0 }.refFreq.mhz = 0 := by
  decide +kernel

theorem test_witness_SolveRejectsLowTarget :   -- S9
    let s := drive { s2 with targetFreq := mhz 34374999 1000000 }
    s.solveIn.rCounter ≠ 0 ∧ s.solveIn.refFreq.mhz ≠ 0 ∧ s.config.lowFreqPolicy = .error
      ∧ s.solveIn.targetFreq.mhz < 34375 / 1000 := by decide +kernel

theorem test_witness_SolveRejectsZeroMod :   -- S89: 1000 * pfd is the tie 1/2
    let s := drive (ports .ext (mhz 2200) (mhz 5 10000) 0 0)
    SolveStarts s (5 / 10000) 0 ∧ RoundsTo s.config.roundMode (1000 * (5 / 10000)) 0 :=
  ⟨⟨by decide, by decide +kernel, by decide +kernel, .inl (by decide +kernel)⟩,
    .inr (.inr (by decide +kernel))⟩

theorem test_witness_SolveRejectsPfdAboveItsCeilings_fraction :   -- S50
    SolveReaches (drive (ports .ext (mhz 2210) (mhz 50) 100 1)) 50 0 44 50000 10000
      ∧ (32 : Rat) < 50 ∧ (10000 : Nat) ≠ 0 :=
  ⟨{ starts := ⟨by decide, by decide +kernel, by decide +kernel, .inl (by decide +kernel)⟩
     modRounds := .inl (by decide +kernel)
     modPositive := by decide
     intFloor := ⟨_, rfl, by decide +kernel, by decide +kernel, .inl (by decide +kernel)⟩ },
    by norm_num, by decide⟩

theorem test_witness_SolveRejectsPfdAboveItsCeilings_above_90 :   -- S54
    SolveReaches (drive (ports .ext (mhz 2200) (mhz 100) 255 1)) 100 0 22 100000 0
      ∧ (32 : Rat) < 100 ∧ (90 : Rat) < 100
      ∧ (drive (ports .ext (mhz 2200) (mhz 100) 255 1)).solveIn.variant = .ext :=
  ⟨{ starts := ⟨by decide, by decide +kernel, by decide +kernel, .inl (by decide +kernel)⟩
     modRounds := .inl (by decide +kernel)
     modPositive := by decide
     intFloor := ⟨_, rfl, by decide +kernel, by decide +kernel, .inl (by decide +kernel)⟩ },
    by norm_num, by norm_num, rfl⟩

theorem test_witness_SolveRejectsPfdAboveItsCeilings_at_90 :
    let s := drive (ports .ext (mhz 2250) (mhz 90) 0 0)
    SolveReaches s 90 0 25 90000 0 ∧ (32 : Rat) < 90 ∧ s.solveIn.variant = .ext
      ∧ (90 : Rat) ≤ 90 ∧ s.solveIn.bsClkMode = 0 :=
  ⟨{ starts := ⟨by decide, by decide +kernel, by decide +kernel, .inl (by decide +kernel)⟩
     modRounds := .inl (by decide +kernel)
     modPositive := by decide
     intFloor := ⟨_, rfl, by decide +kernel, by decide +kernel, .inl (by decide +kernel)⟩ },
    by norm_num, rfl, by norm_num, rfl⟩

/-- SOLVE's values where the PFD frequency is 50 MHz and the target 2200 MHz. -/
theorem reaches_50 (v : Variant) (div : BitVec 8) (mode : BitVec 1) :
    SolveReaches (drive (ports v (mhz 2200) (mhz 50) div mode)) 50 0 44 50000 0 where
  starts :=
    ⟨show (1 : BitVec 10) ≠ 0 by decide, show (mhz 50).mhz ≠ 0 by decide +kernel,
      show (50 : Rat) = (mhz 50).mhz * (if false then 2 else 1)
        / ((if false then 2 else 1) * (((1 : BitVec 10).toNat : Nat) : Rat)) by decide +kernel,
      .inl (show 0 ≤ 6 ∧ (2200 : Rat) / 2 ^ 0 ≤ (mhz 2200).mhz ∧ ∀ j < 0,
        (mhz 2200).mhz < (2200 : Rat) / 2 ^ j by decide +kernel)⟩
  modRounds := .inl (by decide +kernel)
  modPositive := by decide
  intFloor := ⟨(mhz 2200).mhz * (if (1 : BitVec 1) = 1 then 2 ^ 0 else 1) / 50, rfl,
    by decide +kernel, by decide +kernel, .inl (by decide +kernel)⟩

theorem test_witness_SolveNeedsDividerInHighRange :   -- S45
    let s := drive (ports .ext (mhz 2200) (mhz 50) 0 1)
    SolveReaches s 50 0 44 50000 0 ∧ PfdAllowed s.solveIn 50 0 ∧ s.solveIn.bsClkDivIn = 0
      ∧ s.solveIn.bsClkMode = 1 :=
  ⟨reaches_50 _ _ _, fun _ => ⟨rfl, fun _ => ⟨by decide +kernel, rfl⟩⟩, rfl, rfl⟩

theorem test_witness_SolveRejectsBandSelectClock_above_500 :   -- S49
    let s := drive (ports .ext (mhz 2200) (mhz 50) 99 1)
    SolveReaches s 50 0 44 50000 0 ∧ PfdAllowed s.solveIn 50 0 ∧ TakesDivider s.solveIn 50 99
      ∧ (500 : Rat) < 1000 * 50 / (99 : BitVec 8).toNat :=
  ⟨reaches_50 _ _ _, fun _ => ⟨rfl, fun _ => ⟨by decide +kernel, rfl⟩⟩, .inl (by decide),
    by decide +kernel⟩

theorem test_witness_SolveRejectsBandSelectClock_ext_at_500 :   -- S65
    let s := drive (ports .ext (mhz 2210) (mhz 32) 64 0)
    SolveReaches s 32 0 69 32000 2000 ∧ PfdAllowed s.solveIn 32 2000 ∧ TakesDivider s.solveIn 32 64
      ∧ (125 : Rat) < 1000 * 32 / (64 : BitVec 8).toNat
      ∧ 1000 * (32 : Rat) / (64 : BitVec 8).toNat ≤ 500
      ∧ s.solveIn.variant = .ext ∧ s.solveIn.bsClkMode = 0 :=
  ⟨{ starts := ⟨by decide, by decide +kernel, by decide +kernel, .inl (by decide +kernel)⟩
     modRounds := .inl (by decide +kernel)
     modPositive := by decide
     intFloor := ⟨_, rfl, by decide +kernel, by decide +kernel, .inl (by decide +kernel)⟩ },
    fun h => absurd h (by decide +kernel), .inl (by decide), by decide +kernel, by decide +kernel,
    rfl, rfl⟩

theorem test_witness_SolveRejectsBandSelectClock_base :   -- S52's clock, its divider supplied
    let s := drive (ports .base (mhz 2200) (mhz 50) 255 0)
    SolveReaches s 50 0 44 50000 0 ∧ PfdAllowed s.solveIn 50 0 ∧ TakesDivider s.solveIn 50 255
      ∧ (125 : Rat) < 1000 * 50 / (255 : BitVec 8).toNat
      ∧ 1000 * (50 : Rat) / (255 : BitVec 8).toNat ≤ 500 ∧ s.solveIn.variant = .base :=
  ⟨reaches_50 _ _ _, fun _ => ⟨rfl, fun h => by cases h⟩, .inl (by decide), by decide +kernel,
    by decide +kernel, rfl⟩

theorem test_witness_SolutionFrequencyLimits :
    let s := drive { s2 with variant := .base }
    exec .solve s = .next { s with last := .solved ⟨89, 5, 3, 64, 200⟩ }
      ∧ (25 : Rat) = s.solveIn.refFreq.mhz * (if s.solveIn.refDoubler then 2 else 1)
          / ((if s.solveIn.refDiv2 then 2 else 1) * (s.solveIn.rCounter.toNat : Rat))
      ∧ s.solveIn.variant = .base :=
  ⟨exec_solve_ok (by decide +kernel), by decide +kernel, rfl⟩

theorem test_witness_SolutionFitsItsPorts :
    let s := drive s2
    let t := s.driveFreqs 35000000 25000000
    s.config.freqWidth = 40 ∧ s.config.freqUnit.mhz = 1 / 1000000 ∧ s.config.solWidth = 64
      ∧ exec .solve t = .next { t with last := .solved ⟨89, 5, 3, 64, 200⟩ } :=
  ⟨rfl, by decide +kernel, rfl, exec_solve_ok (by decide +kernel)⟩

theorem test_witness_ReductionKeepsTheRatio :
    2 ≤ 25000 ∧ (true = true → 25000 ∣ 15000 → 15000 = 0)
      ∧ 2 ≤ 2 ∧ (true = true → 2 ∣ 0 → 0 = 0) := by decide

theorem test_witness_DerivedDividerKeeps125 :   -- the last PFD frequency without clamping
    (0 : Rat) < 255 / 8 ∧ 8 * (255 / 8 : Rat) ≤ 255 ∧ s2.bsClkDivIn = 0
      ∧ bandSelectDivider s2 (255 / 8) = .ok 255 := by decide +kernel

theorem test_witness_SolveReadsOnlyItsPorts :
    busy.solveIn = (drive s2).solveIn ∧ busy.config.roundMode = (drive s2).config.roundMode
      ∧ busy.config.lowFreqPolicy = (drive s2).config.lowFreqPolicy ∧ busy ≠ drive s2 := by
  refine ⟨rfl, rfl, rfl, fun h => ?_⟩
  exact absurd (congrArg State.calls h) (by decide)

theorem test_witness_EncodePacksTheSixWords :
    let s := enc e4
    Table.wf s.config.cpCurrentTable = true ∧ Table.wf s.config.abpTable = true
      ∧ Table.wf s.config.outPowerTable = true
      ∧ s.encodeIn.int ≤ 65535 ∧ s.encodeIn.frac ≤ 4095 ∧ s.encodeIn.mod ≤ 4095
      ∧ (s.encodeIn.chargePumpCurrent, (7 : BitVec 4)) ∈ s.config.cpCurrentTable
      ∧ (s.encodeIn.antibacklashPulseWidth, (0 : BitVec 1)) ∈ s.config.abpTable
      ∧ (s.encodeIn.auxOutputPower, (0 : BitVec 2)) ∈ s.config.outPowerTable
      ∧ (s.encodeIn.outputPower, (3 : BitVec 2)) ∈ s.config.outPowerTable
      ∧ s.encodeIn.outputDivider.toNat = 2 ^ 6 ∧ 6 ≤ 6 := by decide +kernel

theorem test_witness_EncodeChecksRanges :   -- E11, E13, E15
    encodeOp Config.specValues { cfg0 with int := 65536 } = .error ⟨.int, .upTo 65535⟩
      ∧ encodeOp Config.specValues { cfg0 with int := 65535, frac := 4096 }
          = .error ⟨.frac, .upTo 4095⟩
      ∧ encodeOp Config.specValues { cfg0 with frac := 4095, mod := 4096 }
          = .error ⟨.mod, .upTo 4095⟩ := by decide +kernel

/-- The three ranges, as the membership checks find them. -/
def inRange (p : EncodeInputs) : Bool := p.int ≤ 65535 && p.frac ≤ 4095 && p.mod ≤ 4095

theorem test_witness_EncodeChecksTableKeys :   -- E19, E20, E22, E23
    let c := Config.specValues
    (inRange { cfg0 with chargePumpCurrent := mkRat 249 100 } = true
        ∧ mkRat 249 100 ∉ c.cpCurrentTable.map Prod.fst)
      ∧ (inRange { cfg0 with antibacklashPulseWidth := 3 } = true
        ∧ cfg0.chargePumpCurrent ∈ c.cpCurrentTable.map Prod.fst
        ∧ (3 : Rat) ∉ c.abpTable.map Prod.fst)
      ∧ (inRange { cfg0 with auxOutputPower := 0 } = true
        ∧ cfg0.antibacklashPulseWidth ∈ c.abpTable.map Prod.fst
        ∧ (0 : Rat) ∉ c.outPowerTable.map Prod.fst)
      ∧ (inRange { cfg0 with outputPower := 6 } = true
        ∧ cfg0.auxOutputPower ∈ c.outPowerTable.map Prod.fst
        ∧ (6 : Rat) ∉ c.outPowerTable.map Prod.fst) := by decide +kernel

theorem test_witness_EncodeChecksOutputDivider :   -- E26, E29
    let c := Config.specValues
    inRange { cfg0 with outputDivider := 0 } = true ∧ inRange { cfg0 with outputDivider := 128 } = true
      ∧ cfg0.chargePumpCurrent ∈ c.cpCurrentTable.map Prod.fst
      ∧ cfg0.antibacklashPulseWidth ∈ c.abpTable.map Prod.fst
      ∧ cfg0.auxOutputPower ∈ c.outPowerTable.map Prod.fst
      ∧ cfg0.outputPower ∈ c.outPowerTable.map Prod.fst
      ∧ (0 : BitVec 8).toNat ∉ [1, 2, 4, 8, 16, 32, 64]
      ∧ (128 : BitVec 8).toNat ∉ [1, 2, 4, 8, 16, 32, 64] := by decide +kernel

/- The next three meet the hypotheses of EncodedWordsCarryTheirAddress, EncodedUnusedBitsAreZero,
EncodedComputedFlags, EncodedPhaseValue and EncodedDividerSelect, with FRAC zero and not, the width 10 ns
and not, the phase value set and not, and the output divider 1 and 64. -/

theorem test_witness_EncodedWords_e4 :
    exec .encode (enc e4) = .next { enc e4 with last := .encoded e4Words } :=
  exec_encode_ok test_encode_e4

/-- The words of E38. -/
def e38Words : RegisterWords :=
  ⟨0x00320000, 0x08008011, 0x00004EC2, 0x004004B3, 0x008C803C, 0x00580005⟩

theorem test_witness_EncodedWords_e38 :
    let s := enc { cfg0 with antibacklashPulseWidth := 6 }
    exec .encode s = .next { s with last := .encoded e38Words } :=
  exec_encode_ok (by decide +kernel)

/-- The words of E44. -/
def e44Words : RegisterWords :=
  ⟨0x00320000, 0x18000011, 0x00004E42, 0x000004B3, 0x008C803C, 0x00580005⟩

theorem test_witness_EncodedWords_e44 :
    let s := enc { cfg0 with phaseValid := true, phaseValue := 0, phaseAdjust := true }
    exec .encode s = .next { s with last := .encoded e44Words } :=
  exec_encode_ok (by decide +kernel)

theorem test_witness_VariantChangesOnlyWordThree :   -- E11 and E4
    (∃ e, exec .encode (enc { cfg0 with int := 65536 })
        = .next { enc { cfg0 with int := 65536 } with last := .failed e })
      ∧ exec .encode (enc e4) = .next { enc e4 with last := .encoded e4Words } :=
  ⟨⟨.invalidField ⟨.int, .upTo 65535⟩, exec_encode_error (by decide +kernel)⟩,
    exec_encode_ok test_encode_e4⟩

theorem test_witness_EncodeReadsOnlyItsPortsAndTables :
    let s := enc e4
    let t : State := { s with solveIn := s2, sink := [0x00580005] }
    s.encodeIn = t.encodeIn ∧ s.config.cpCurrentTable = t.config.cpCurrentTable
      ∧ s.config.abpTable = t.config.abpTable
      ∧ s.config.outPowerTable = t.config.outPowerTable ∧ s.sink ≠ t.sink :=
  ⟨rfl, rfl, rfl, rfl, by decide⟩

theorem test_witness_ErrorsLeaveNoResult :   -- S44 and E11
    (∃ e, exec .solve (drive (ports .ext (mhz 2200) (mhz 50) 0 0))
        = .next { drive (ports .ext (mhz 2200) (mhz 50) 0 0) with last := .failed e })
      ∧ ∃ e, exec .encode (enc { cfg0 with int := 65536 })
        = .next { enc { cfg0 with int := 65536 } with last := .failed e } :=
  ⟨⟨_, exec_solve_error test_solve_s44⟩, _,
    exec_encode_error (e := ⟨.int, .upTo 65535⟩) (by decide +kernel)⟩

theorem test_witness_OperationsForgetThePast :
    (Instr.encode = .solve ∨ Instr.encode = .encode) ∧ (Instr.solve = .solve ∨ Instr.solve = .encode)
      ∧ exec .solve busy = .next { busy with last := .solved ⟨89, 5, 3, 64, 200⟩ } :=
  ⟨.inr rfl, .inl rfl, exec_solve_ok test_solve_s2⟩

/-- The request of P4's third and fourth step. -/
def p4 : State := { State.reset with solveIn := s2, encodeIn := cfg0 }

theorem solve_p4 : exec .solve p4 = .next { p4 with last := .solved ⟨89, 5, 3, 64, 200⟩ } :=
  exec_solve_ok test_solve_s2

/-- P4 after its ENCODE. -/
def p4Done : State :=
  { p4 with encodeIn := tiedInputs s2 ⟨89, 5, 3, 64, 200⟩ cfg0, last := .encoded e4Words }

theorem configure_p4 : configure p4 = .next p4Done := by
  unfold configure
  rw [show execSolve p4 = _ from solve_p4]
  exact exec_encode_ok (s := { p4Done with last := .solved ⟨89, 5, 3, 64, 200⟩ }) (W := e4Words)
    (by decide +kernel)

theorem test_witness_ConfigureIsSolveThenEncode :   -- P4 and S44
    exec .solve p4 = .next { p4 with last := .solved ⟨89, 5, 3, 64, 200⟩ }
      ∧ ∃ e, exec .solve (drive (ports .ext (mhz 2200) (mhz 50) 0 0))
        = .next { drive (ports .ext (mhz 2200) (mhz 50) 0 0) with last := .failed e } :=
  ⟨solve_p4, _, exec_solve_error test_solve_s44⟩

/-- P4's first request, without reduction. -/
def p4Bad : State := { p4 with solveIn := { s2 with gcdEnable := false } }

theorem test_witness_ConfigureNeverRefusesTheDivider :   -- and of NothingSentAfterFailure
    ∃ t, configure p4Bad = .next t ∧ t.last = .failed (.invalidField ⟨.frac, .upTo 4095⟩) := by
  refine ⟨{ p4Bad with
    encodeIn := tiedInputs p4Bad.solveIn ⟨89, 25000, 15000, 64, 200⟩ cfg0
    last := .failed (.invalidField ⟨.frac, .upTo 4095⟩) }, ?_, rfl⟩
  unfold configure
  rw [show execSolve p4Bad = _ from
    exec_solve_ok (sol := ⟨89, 25000, 15000, 64, 200⟩) (by decide +kernel)]
  exact exec_encode_error (e := ⟨.frac, .upTo 4095⟩)
    (s := { p4Bad with
      encodeIn := tiedInputs p4Bad.solveIn ⟨89, 25000, 15000, 64, 200⟩ cfg0
      last := .solved ⟨89, 25000, 15000, 64, 200⟩ }) (by decide +kernel)

theorem test_witness_EmitSendsDescending :
    p4Done.last = .encoded e4Words ∧ p4Done.config.emitOrder = [5, 4, 3, 2, 1, 0] := ⟨rfl, rfl⟩

theorem test_witness_EmitRunsAsSteps :
    exec .encode (enc e4) = .next { enc e4 with last := .encoded e4Words }
      ∧ emitCalls Config.specValues e4Words
        = [.word 0x00580005, .word 0x00EC803C, .word 0x000004B3, .word 0x00004F42,
           .word 0x08008029, .word 0x002C8018] :=
  ⟨exec_encode_ok test_encode_e4, by decide⟩

theorem test_witness_ConfigureThenEmitDelivers :
    p4.config.wf = true ∧ configure p4 = .next p4Done ∧ p4Done.last = .encoded e4Words
      ∧ emit p4Done = .next { p4Done with
          sink := [0x00580005, 0x00EC803C, 0x000004B3, 0x00004F42, 0x08008029, 0x002C8018] } :=
  ⟨by decide +kernel, configure_p4, rfl, rfl⟩

end Sys2Proof.Tests
end

section
/-! PROOFS. The parameters' spec values and the raw port formats (00_scope.md R4, R5): what reset fixes, and
what each raw port denotes once the caller drives it. -/

namespace Sys2Proof

/-! ## The spec values of the units, 00_scope.md R4 -/

@[simp] theorem specValues_freqUnit_mhz : Config.specValues.freqUnit.mhz = 1 / 1000000 :=
  Rat.mkRat_eq_div 1 1000000

@[simp] theorem specValues_keyUnit : Config.specValues.keyUnit = 1 / 100 :=
  Rat.mkRat_eq_div 1 100

/-! ## Well-formed instantiations -/

theorem Table.wf_iff {n : Nat} (t : Table n) : Table.wf t = true ↔ (t.map Prod.fst).Nodup :=
  decide_eq_true_iff

theorem Config.wf_iff (c : Config) :
    c.wf = true ↔ (c.cpCurrentTable.map Prod.fst).Nodup ∧ (c.abpTable.map Prod.fst).Nodup
      ∧ (c.outPowerTable.map Prod.fst).Nodup ∧ c.emitOrder.Perm [0, 1, 2, 3, 4, 5] := by
  simp only [Config.wf, Bool.and_eq_true, Table.wf_iff, decide_eq_true_iff, and_assoc]

/-- The marked default tables give no key twice and EMIT_ORDER's spec value names each word once. -/
theorem specValues_wf : Config.specValues.wf = true := by
  have cpKeys : (Config.cpCurrentDefault.map Prod.fst).Nodup := by decide +kernel
  have abpKeys : (Config.abpDefault.map Prod.fst).Nodup := by decide +kernel
  have powerKeys : (Config.outPowerDefault.map Prod.fst).Nodup := by decide +kernel
  have order : Config.descending.Perm [0, 1, 2, 3, 4, 5] := List.reverse_perm [0, 1, 2, 3, 4, 5]
  exact (Config.wf_iff _).2 ⟨cpKeys, abpKeys, powerKeys, order⟩

end Sys2Proof

namespace Sys2Proof.Machine

open Sys2Proof

/-! ## Raw ports, 00_scope.md R5 -/

@[simp] theorem freqOfRaw_mhz (c : Config) (raw : BitVec c.freqWidth) :
    (freqOfRaw c raw).mhz = raw.toNat * c.freqUnit.mhz := rfl

theorem keyOfRaw_eq (c : Config) (raw : BitVec c.keyWidth) :
    keyOfRaw c raw = raw.toInt * c.keyUnit := rfl

/-- Under the spec value of FREQ_UNIT a raw frequency counts hertz. -/
theorem freqOfRaw_specValues (raw : BitVec Config.specValues.freqWidth) :
    (freqOfRaw Config.specValues raw).mhz = raw.toNat / 1000000 := by
  rw [freqOfRaw_mhz, specValues_freqUnit_mhz, mul_one_div]

/-- Under the spec value of KEY_UNIT a raw key counts hundredths, with its sign. -/
theorem keyOfRaw_specValues (raw : BitVec Config.specValues.keyWidth) :
    keyOfRaw Config.specValues raw = raw.toInt / 100 := by
  rw [keyOfRaw_eq, specValues_keyUnit, mul_one_div]

@[simp] theorem State.driveFreqs_targetFreq (s : State) (a b : BitVec s.config.freqWidth) :
    (s.driveFreqs a b).solveIn.targetFreq = freqOfRaw s.config a := rfl
@[simp] theorem State.driveFreqs_refFreq (s : State) (a b : BitVec s.config.freqWidth) :
    (s.driveFreqs a b).solveIn.refFreq = freqOfRaw s.config b := rfl

@[simp] theorem State.driveKeys_chargePumpCurrent (s : State)
    (a b c d : BitVec s.config.keyWidth) :
    (s.driveKeys a b c d).encodeIn.chargePumpCurrent = keyOfRaw s.config a := rfl
@[simp] theorem State.driveKeys_antibacklashPulseWidth (s : State)
    (a b c d : BitVec s.config.keyWidth) :
    (s.driveKeys a b c d).encodeIn.antibacklashPulseWidth = keyOfRaw s.config b := rfl
@[simp] theorem State.driveKeys_auxOutputPower (s : State) (a b c d : BitVec s.config.keyWidth) :
    (s.driveKeys a b c d).encodeIn.auxOutputPower = keyOfRaw s.config c := rfl
@[simp] theorem State.driveKeys_outputPower (s : State) (a b c d : BitVec s.config.keyWidth) :
    (s.driveKeys a b c d).encodeIn.outputPower = keyOfRaw s.config d := rfl

@[simp] theorem State.driveDivider_int (s : State) (a b c : BitVec s.config.solWidth) :
    (s.driveDivider a b c).encodeIn.int = a.toNat := rfl
@[simp] theorem State.driveDivider_frac (s : State) (a b c : BitVec s.config.solWidth) :
    (s.driveDivider a b c).encodeIn.frac = b.toNat := rfl
@[simp] theorem State.driveDivider_mod (s : State) (a b c : BitVec s.config.solWidth) :
    (s.driveDivider a b c).encodeIn.mod = c.toNat := rfl

/-! ## The obligations -/

/-- Settles O10: reset holds R4's instantiation, whose units and well-formedness are the lemmas above. -/
theorem resetTakesSpecValues : Obligations.ResetTakesSpecValues := by
  unfold Obligations.ResetTakesSpecValues
  have config : State.reset.config = Config.specValues := rfl
  rw [config]
  exact ⟨rfl, rfl, rfl, specValues_wf, rfl, specValues_freqUnit_mhz, rfl, specValues_keyUnit, rfl⟩

/-- Settles O57: each raw port is read in the units of the state's own instantiation, and R5's four values
are counts of hertz and of hundredths. -/
theorem portFormats : Obligations.PortFormats := by
  unfold Obligations.PortFormats
  refine ⟨fun s a b => ?freqs, fun s a b c d => ?keys, fun s a b c => ?divider, ?mhz25, ?key2_5,
    ?keyNeg4, ?key10⟩
  case freqs => simp
  case keys => simp [keyOfRaw_eq]
  case divider => simp
  case mhz25 =>
    have raw : (25000000 : BitVec Config.specValues.freqWidth).toNat = 25000000 := rfl
    rw [freqOfRaw_specValues, raw]
    norm_num
  case key2_5 =>
    have raw : (250 : BitVec Config.specValues.keyWidth).toInt = 250 := rfl
    rw [keyOfRaw_specValues, raw]
    norm_num
  case keyNeg4 =>
    have raw : (-400 : BitVec Config.specValues.keyWidth).toInt = -400 := rfl
    rw [keyOfRaw_specValues, raw]
    norm_num
  case key10 =>
    have raw : (1000 : BitVec Config.specValues.keyWidth).toInt = 1000 := rfl
    rw [keyOfRaw_specValues, raw]
    norm_num

end Sys2Proof.Machine
end

section
/-! PROOFS. The instructions' effects as equations: an operation replaces the outcome by a function of its
ports and of the parameters it reads, a format row sends its word. The frames of the instructions follow
(10_state.md R10, R11, R15, R16; 42_flow.md R143). -/

namespace Sys2Proof.Machine

open Sys2Proof

/-! ## The outcome of an operation, a function of its ports and parameters -/

/-- The outcome SOLVE ends with. -/
def solveResult (c : Config) (p : SolveInputs) : OpResult :=
  match solveOp c p with
  | .ok sol => .solved sol
  | .error e => .failed (.invalidConfiguration e)

/-- The outcome ENCODE ends with. -/
def encodeResult (c : Config) (p : EncodeInputs) : OpResult :=
  match encodeOp c p with
  | .ok W => .encoded W
  | .error e => .failed (.invalidField e)

theorem exec_solve_eq (s : State) :
    exec .solve s = .next (s.complete (solveResult s.config s.solveIn)) := by
  change execSolve s = _
  rw [execSolve_eq_next_iff, solveResult]
  cases solveOp s.config s.solveIn with
  | ok sol => exact .inl ⟨sol, rfl, rfl⟩
  | error e => exact .inr ⟨e, rfl, rfl⟩

theorem exec_encode_eq (s : State) :
    exec .encode s = .next (s.complete (encodeResult s.config s.encodeIn)) := by
  change execEncode s = _
  rw [execEncode_eq_next_iff, encodeResult]
  cases encodeOp s.config s.encodeIn with
  | ok W => exact .inl ⟨W, rfl, rfl⟩
  | error e => exact .inr ⟨e, rfl, rfl⟩

/-- Of the parameters SOLVE reads ROUND_MODE, in steps 4 and 5, and LOW_FREQ_POLICY, in step 2. -/
theorem solveResult_congr {c d : Config} (hround : c.roundMode = d.roundMode)
    (hpolicy : c.lowFreqPolicy = d.lowFreqPolicy) (p : SolveInputs) :
    solveResult c p = solveResult d p := by
  have fromStep4 : solveFrom c p = solveFrom d p := by
    funext pfd k
    simp only [solveFrom, hround]
  simp only [solveResult, solveOp, hpolicy, fromStep4]

/-- Of the parameters ENCODE reads the three tables, in its membership checks. -/
theorem encodeResult_congr {c d : Config} (hcp : c.cpCurrentTable = d.cpCurrentTable)
    (habp : c.abpTable = d.abpTable) (hpower : c.outPowerTable = d.outPowerTable)
    (p : EncodeInputs) : encodeResult c p = encodeResult d p := by
  have codes : lookupCodes c p = lookupCodes d p := by
    simp only [lookupCodes, hcp, habp, hpower]
  simp only [encodeResult, encodeOp, codes]

/-! ## The effect of an instruction, by what presents it -/

theorem exec_of_operation {i : Instr} (hi : i = .solve ∨ i = .encode) (s : State) :
    ∃ r, exec i s = .next (s.complete r) := by
  obtain rfl | rfl := hi
  · exact ⟨_, exec_solve_eq s⟩
  · exact ⟨_, exec_encode_eq s⟩

/-- An instruction that is no operation is presented by a register word. -/
theorem exists_encode_eq_word {i : Instr} (hi : ¬(i = .solve ∨ i = .encode)) :
    ∃ w, encode i = .word w := by
  cases i with
  | solve => exact absurd (.inl rfl) hi
  | encode => exact absurd (.inr rfl) hi
  | w0 | w1 | w2 | w3Ext | w3Base | w4 | w5 => exact ⟨_, rfl⟩

/-- An instruction that a register word presents sends that word. -/
theorem exec_of_encode_eq_word {i : Instr} {w : Word} (h : encode i = .word w) (s : State) :
    exec i s = .next (s.send w) := by
  cases i with
  | solve | encode => cases h
  | w0 | w1 | w2 | w3Ext | w3Base | w4 | w5 => cases h; rfl

/-- Everything an instruction can do. -/
theorem exec_eq_next_cases {i : Instr} {s t : State} (h : exec i s = .next t) :
    ((i = .solve ∨ i = .encode) ∧ ∃ r, t = s.complete r)
      ∨ (¬(i = .solve ∨ i = .encode) ∧ ∃ w, encode i = .word w ∧ t = s.send w) := by
  by_cases hi : i = .solve ∨ i = .encode
  · obtain ⟨r, hr⟩ := exec_of_operation hi s
    exact .inl ⟨hi, r, Host.Outcome.next.inj (h.symm.trans hr)⟩
  · obtain ⟨w, hw⟩ := exists_encode_eq_word hi
    have sent := exec_of_encode_eq_word hw s
    exact .inr ⟨hi, w, hw, Host.Outcome.next.inj (h.symm.trans sent)⟩

/-! ## The obligations -/

/-- Settles O14: the two ways in which an instruction can act are the two cases of the statement. -/
theorem instructionFrame : Obligations.InstructionFrame := by
  unfold Obligations.InstructionFrame
  intro i s t h
  obtain ⟨hi, r, ht⟩ | ⟨hi, w, hw, ht⟩ := exec_eq_next_cases h
  · rw [if_pos hi]
    exact ⟨r, ht⟩
  · rw [if_neg hi]
    exact ⟨w, hw, ht⟩

/-- Settles O30: both states end SOLVE with the outcome `solveResult` gives for the shared ports. -/
theorem solveReadsOnlyItsPorts : Obligations.SolveReadsOnlyItsPorts := by
  unfold Obligations.SolveReadsOnlyItsPorts
  intro s t hports hround hpolicy
  have same : solveResult s.config s.solveIn = solveResult t.config t.solveIn := by
    rw [hports, solveResult_congr hround hpolicy]
  exact ⟨solveResult s.config s.solveIn, exec_solve_eq s, same ▸ exec_solve_eq t⟩

/-- Settles O42: both states end ENCODE with the outcome `encodeResult` gives for the shared ports. -/
theorem encodeReadsOnlyItsPortsAndTables : Obligations.EncodeReadsOnlyItsPortsAndTables := by
  unfold Obligations.EncodeReadsOnlyItsPortsAndTables
  intro s t hports hcp habp hpower
  have same : encodeResult s.config s.encodeIn = encodeResult t.config t.encodeIn := by
    rw [hports, encodeResult_congr hcp habp hpower]
  exact ⟨encodeResult s.config s.encodeIn, exec_encode_eq s, same ▸ exec_encode_eq t⟩

end Sys2Proof.Machine
end

section
/-! PROOFS. The step and the runs: which instruction a step runs, what reset holds, and what every run keeps
(10_state.md R12, R22, R24; 20_memory.md R38). -/

namespace Sys2Proof.Machine

open Sys2Proof

/-! ## The call a step takes -/

theorem step_of_no_call {s : State} (h : s.calls = []) : step s = .next s :=
  (step_eq_next_iff s s).mpr (.inl ⟨h, rfl⟩)

theorem step_of_decode {s : State} {c : Command} {rest : List Command} {i : Instr}
    (hcalls : s.calls = c :: rest) (hdecode : decode s.encodeIn.variant c = .ok i) :
    step s = exec i { s with calls := rest } := by
  simp only [step, hcalls, hdecode]

/-! ## Placing a row of the opcode table (log 11) -/

/-- Only a word 3 with bits [23:21] all 0 is read by the variant (30_encoding.md R46). -/
theorem decodeWord_variant {w : Word} (h : ¬(addressTag w = 3 ∧ slice w 21 3 = 0))
    (u v : Variant) : decodeWord u w = decodeWord v w := by
  unfold decodeWord
  by_cases h3 : addressTag w = 3
  · have notBase (v : Variant) : ¬(v = .base ∧ slice w 21 3 = 0) := fun hv => h ⟨h3, hv.2⟩
    simp only [if_neg (notBase u), if_neg (notBase v)]
  · simp only [if_neg h3]

/-- A command without a variant of its own has the same reading under every variant. -/
theorem decode_of_tableVariant_eq_none {c : Command} (h : tableVariant c = none)
    (u v : Variant) : decode u c = decode v c := by
  cases c with
  | op sel => rfl
  | word w =>
    refine decodeWord_variant (fun hw => ?_) u v
    simp [tableVariant, hw] at h

/-- The variant put in place for a command gives it the reading the opcode table gives it. -/
theorem decode_withVariantFor (s : State) (c : Command) :
    decode (s.withVariantFor c).encodeIn.variant c = decode ((tableVariant c).getD .base) c := by
  cases h : tableVariant c with
  | none => exact decode_of_tableVariant_eq_none h _ _
  | some v => simp [State.withVariantFor, h]

theorem decodeTableWord_eq_some_iff (nbits w : Nat) (i : Instr) :
    decodeTableWord nbits w = some i ↔
      decode ((tableVariant (tableCommand nbits w)).getD .base) (tableCommand nbits w) = .ok i := by
  unfold decodeTableWord
  cases h : decode ((tableVariant (tableCommand nbits w)).getD .base) (tableCommand nbits w) <;>
    simp [h]

/-! ## Runs of a machine -/

theorem run_succ_eq_next_iff (M : Host.Core) (k : Nat) (s t : M.State) :
    M.run (k + 1) s = .next t ↔ ∃ u, M.step s = .next u ∧ M.run k u = .next t := by
  rw [Host.Core.run]
  cases M.step s <;> simp

/-- What each single step relates to its start, in a way that composes, a run relates to its start. -/
theorem run_induction (M : Host.Core) {R : M.State → M.State → Prop} (refl : ∀ s, R s s)
    (trans : ∀ s t u, R u t → R t s → R u s) (step_rel : ∀ s t, M.step s = .next t → R t s)
    (k : Nat) {s t : M.State} (h : M.run k s = .next t) : R t s := by
  induction k generalizing s with
  | zero =>
    obtain rfl : s = t := Host.Outcome.next.inj h
    exact refl s
  | succ k ih =>
    obtain ⟨u, hstep, hrun⟩ := (run_succ_eq_next_iff M k s t).mp h
    exact trans s u t (ih hrun) (step_rel s u hstep)

/-! ## What a run keeps -/

/-- `t` has the parameters and ports of `s`, and every word that `s` had sent. -/
structure State.Extends (t s : State) : Prop where
  config : t.config = s.config
  solveIn : t.solveIn = s.solveIn
  encodeIn : t.encodeIn = s.encodeIn
  sink : s.sink <+: t.sink

theorem State.Extends.refl (s : State) : s.Extends s :=
  ⟨rfl, rfl, rfl, [], s.sink.append_nil⟩

theorem State.Extends.trans {s t u : State} (htu : u.Extends t) (hst : t.Extends s) :
    u.Extends s :=
  ⟨htu.config.trans hst.config, htu.solveIn.trans hst.solveIn, htu.encodeIn.trans hst.encodeIn,
    hst.sink.trans htu.sink⟩

theorem State.complete_extends (s : State) (r : OpResult) : (s.complete r).Extends s :=
  ⟨rfl, rfl, rfl, [], s.sink.append_nil⟩

theorem State.send_extends (s : State) (w : Word) : (s.send w).Extends s :=
  ⟨rfl, rfl, rfl, [w], rfl⟩

theorem State.withoutCall_extends (s : State) (rest : List Command) :
    State.Extends { s with calls := rest } s :=
  ⟨rfl, rfl, rfl, [], s.sink.append_nil⟩

theorem exec_extends {i : Instr} {s t : State} (h : exec i s = .next t) : t.Extends s := by
  obtain ⟨_, r, rfl⟩ | ⟨_, w, _, rfl⟩ := exec_eq_next_cases h
  · exact s.complete_extends r
  · exact s.send_extends w

theorem step_extends {s t : State} (h : step s = .next t) : t.Extends s := by
  obtain ⟨_, rfl⟩ | ⟨c, rest, i, _, _, hexec⟩ := (step_eq_next_iff s t).mp h
  · exact .refl t
  · exact (exec_extends hexec).trans (s.withoutCall_extends rest)

theorem run_extends (k : Nat) {s t : State} (h : core.run k s = .next t) : t.Extends s :=
  run_induction core .refl (fun _ _ _ => .trans) (fun _ _ => step_extends) k h

/-! ## The obligations -/

/-- Settles O13: one step extends its state, and extending composes along a run. -/
theorem runsKeepParametersAndSentWords : Obligations.RunsKeepParametersAndSentWords := by
  unfold Obligations.RunsKeepParametersAndSentWords
  intro k s t h
  obtain ⟨hconfig, hsolve, hencode, hsink⟩ := run_extends k h
  exact ⟨hconfig, hsolve, hencode, hsink⟩

/-- Settles O5: the step's branch for a call that decodes. -/
theorem stepRunsTheDecodedInstruction : Obligations.StepRunsTheDecodedInstruction := by
  unfold Obligations.StepRunsTheDecodedInstruction
  intro s c rest i hcalls hdecode
  exact step_of_decode hcalls hdecode

/-- Settles O6: the step's branch for no call. -/
theorem noCallNoChange : Obligations.NoCallNoChange := by
  unfold Obligations.NoCallNoChange
  intro s h
  exact step_of_no_call h

/-- Settles O8: the placed command is the next call, and the variant put in place gives it the table's
reading. -/
theorem placedRowIsRun : Obligations.PlacedRowIsRun := by
  unfold Obligations.PlacedRowIsRun
  intro s nbits w i h
  have reading : decode (s.withFetchWord nbits w).encodeIn.variant (tableCommand nbits w) = .ok i := by
    rw [State.withFetchWord_encodeIn, decode_withVariantFor]
    exact (decodeTableWord_eq_some_iff nbits w i).mp h
  rw [step_of_decode (s.withFetchWord_calls nbits w) reading, ← s.withVariantFor_calls]
  rfl

/-- Settles O9: both views of the outcome of reset are empty. -/
theorem resetHoldsNoResult : Obligations.ResetHoldsNoResult := by
  unfold Obligations.ResetHoldsNoResult
  have outcome : State.reset.last = .none := rfl
  exact ⟨outcome, by rw [State.solution, outcome], by rw [State.words, outcome], rfl⟩

/-- Settles O11: at reset no result is held and the sink is empty. -/
theorem resetMeetsTheInvariant : Obligations.ResetMeetsTheInvariant := by
  unfold Obligations.ResetMeetsTheInvariant
  exact { result := trivial, sent := fun w hw => absurd hw List.not_mem_nil }

end Sys2Proof.Machine
end

section
/-! PROOFS. Fields and formats: reading a packed word gives its fields back, and packing what was read keeps
exactly the bits that the format leaves free (30_encoding.md R41 to R48, R59). -/

namespace Sys2Proof

/-! ## One field in a word, 30_encoding.md R41 -/

theorem getLsbD_place {n : Nat} (v : BitVec n) (lo i : Nat) :
    (place v lo).getLsbD i = (decide (i < 32) && decide (lo ≤ i) && v.getLsbD (i - lo)) := by
  simp only [place, BitVec.getLsbD_shiftLeft, BitVec.getLsbD_setWidth]
  by_cases hi : i < 32
  · have hsub : i - lo < 32 := by omega
    by_cases hlo : lo ≤ i
    · simp [hi, hlo, hsub, Nat.not_lt.mpr hlo]
    · simp [hlo, Nat.not_le.mp hlo]
  · simp [hi]

theorem getLsbD_slice (w : Word) (lo n i : Nat) :
    (slice w lo n).getLsbD i = (decide (i < n) && w.getLsbD (lo + i)) :=
  BitVec.getLsbD_extractLsb' lo n w i

/-- A flag is a field of one bit. -/
theorem bit_flag (w : Word) (n : Nat) : bit (flag w n) = slice w n 1 := by
  refine BitVec.eq_of_getLsbD_eq fun i hi => ?_
  obtain rfl : i = 0 := by omega
  rw [getLsbD_slice, BitVec.getLsbD_ofBool]
  simp [flag]

@[simp] theorem slice_or (x y : Word) (lo n : Nat) :
    slice (x ||| y) lo n = slice x lo n ||| slice y lo n :=
  BitVec.extractLsb'_or

@[simp] theorem flag_or (x y : Word) (n : Nat) : flag (x ||| y) n = (flag x n || flag y n) :=
  BitVec.getLsbD_or

/-- A placed field is read back. -/
@[simp] theorem slice_place_self {n : Nat} (v : BitVec n) (lo : Nat) (h : lo + n ≤ 32) :
    slice (place v lo) lo n = v := by
  refine BitVec.eq_of_getLsbD_eq fun i hi => ?_
  have hlt : lo + i < 32 := by omega
  rw [getLsbD_slice, getLsbD_place, Nat.add_sub_cancel_left]
  simp only [hi, hlt, Nat.le_add_right, decide_true, Bool.true_and]

/-- A field is not disturbed by a field placed elsewhere. -/
@[simp] theorem slice_place_of_disjoint {m : Nat} (v : BitVec m) (a lo n : Nat)
    (h : a + m ≤ lo ∨ lo + n ≤ a) : slice (place v a) lo n = 0 := by
  refine BitVec.eq_of_getLsbD_eq fun i hi => ?_
  rw [getLsbD_slice, getLsbD_place, BitVec.ofNat_eq_ofNat, BitVec.getLsbD_zero]
  obtain above | below := h
  · have out : v.getLsbD (lo + i - a) = false := v.getLsbD_of_ge _ (by omega)
    simp [out]
  · have out : ¬ a ≤ lo + i := by omega
    simp [out]

@[simp] theorem flag_place_bit (b : Bool) (n : Nat) (h : n < 32) : flag (place (bit b) n) n = b := by
  rw [flag, getLsbD_place, Nat.sub_self, BitVec.getLsbD_ofBool]
  simp [h]

@[simp] theorem flag_place_of_disjoint {m : Nat} (v : BitVec m) (a n : Nat) (h : a + m ≤ n ∨ n < a) :
    flag (place v a) n = false := by
  have bits := bit_flag (place v a) n
  rw [slice_place_of_disjoint v a n 1 (by omega)] at bits
  exact BitVec.ofBool_eq_iff_eq.mp bits

/-- A constant below the field, such as the address tag, does not disturb it. -/
@[simp] theorem slice_ofNat_of_lt (c lo n : Nat) (h : c < 2 ^ lo) (hlo : lo ≤ 32) :
    slice (BitVec.ofNat 32 c) lo n = 0 := by
  have hc : c % 2 ^ 32 = c := Nat.mod_eq_of_lt (h.trans_le (Nat.pow_le_pow_right (by decide) hlo))
  apply BitVec.eq_of_toNat_eq
  rw [slice_toNat, BitVec.toNat_ofNat, hc, Nat.div_eq_of_lt h, Nat.zero_mod]
  rfl

@[simp] theorem flag_ofNat_of_lt (c n : Nat) (h : c < 2 ^ n) (hn : n ≤ 32) :
    flag (BitVec.ofNat 32 c) n = false := by
  have bits := bit_flag (BitVec.ofNat 32 c) n
  rw [slice_ofNat_of_lt c n 1 h hn] at bits
  exact BitVec.ofBool_eq_iff_eq.mp bits

/-! ## Fields as masks -/

/-- Placing a field back keeps its bits of the word. -/
theorem place_slice (w : Word) (lo n : Nat) :
    place (slice w lo n) lo = w &&& place (BitVec.allOnes n) lo := by
  refine BitVec.eq_of_getLsbD_eq fun i hi => ?_
  rw [BitVec.getLsbD_and, getLsbD_place, getLsbD_place, getLsbD_slice, BitVec.getLsbD_allOnes]
  by_cases hlo : lo ≤ i
  · simp only [Nat.add_sub_cancel' hlo, Bool.and_comm (w.getLsbD i), Bool.and_assoc]
  · simp [hlo]

theorem place_bit_flag (w : Word) (n : Nat) :
    place (bit (flag w n)) n = w &&& place (BitVec.allOnes 1) n := by
  rw [bit_flag, place_slice]

theorem slice_eq_iff (w : Word) (lo n : Nat) (v : BitVec n) (h : lo + n ≤ 32) :
    slice w lo n = v ↔ w &&& place (BitVec.allOnes n) lo = place v lo := by
  rw [← place_slice]
  constructor
  · rintro rfl
    rfl
  · intro hplace
    rw [← slice_place_self (slice w lo n) lo h, hplace, slice_place_self v lo h]

/-- Replacing the bits under a mask leaves a word as it is exactly where those bits are there already. -/
theorem and_not_or_eq_iff {w M m : Word} (hm : m &&& M = m) :
    w &&& ~~~M ||| m = w ↔ w &&& M = m := by
  constructor
  · intro h
    calc w &&& M = (w &&& ~~~M ||| m) &&& M := by rw [h]
      _ = w &&& (M &&& ~~~M) ||| m &&& M := by
        rw [BitVec.and_or_distrib_right, BitVec.and_assoc, BitVec.and_comm (~~~M)]
      _ = m := by simp [hm]
  · rintro rfl
    rw [← BitVec.and_or_distrib_left, BitVec.or_comm, BitVec.or_not_self, BitVec.and_allOnes]

/-- Two masks without a common bit are tested together. -/
theorem and_or_eq_or_iff {w A B a b : Word} (ha : a &&& A = a) (hb : b &&& B = b)
    (haB : a &&& B = 0) (hbA : b &&& A = 0) :
    w &&& (A ||| B) = a ||| b ↔ w &&& A = a ∧ w &&& B = b := by
  constructor
  · intro h
    have under (C : Word) (hC : (A ||| B) &&& C = C) : w &&& C = (a ||| b) &&& C := by
      rw [← h, BitVec.and_assoc, hC]
    have absorbA : (A ||| B) &&& A = A := by ext i hi; simp; grind
    have absorbB : (A ||| B) &&& B = B := by ext i hi; simp; grind
    constructor
    · rw [under A absorbA, BitVec.and_or_distrib_right, ha, hbA]
      exact BitVec.or_zero
    · rw [under B absorbB, BitVec.and_or_distrib_right, hb, haB]
      exact BitVec.zero_or
  · rintro ⟨hA, hB⟩
    rw [BitVec.and_or_distrib_left, hA, hB]

/-! ## Reading a packed word -/

@[simp] theorem unpackW0_packW0 (f : W0Fields) : unpackW0 (packW0 f) = f := by
  simp [unpackW0, packW0]

@[simp] theorem unpackW1_packW1 (f : W1Fields) : unpackW1 (packW1 f) = f := by
  simp [unpackW1, packW1]

@[simp] theorem unpackW2_packW2 (f : W2Fields) : unpackW2 (packW2 f) = f := by
  simp [unpackW2, packW2]

@[simp] theorem unpackW3Base_packW3Base (f : W3BaseFields) : unpackW3Base (packW3Base f) = f := by
  simp [unpackW3Base, packW3Base]

@[simp] theorem unpackW3Ext_packW3Ext (f : W3ExtFields) : unpackW3Ext (packW3Ext f) = f := by
  simp [unpackW3Ext, packW3Ext, packW3Base]

@[simp] theorem unpackW4_packW4 (f : W4Fields) : unpackW4 (packW4 f) = f := by
  simp [unpackW4, packW4]

@[simp] theorem unpackW5_packW5 (f : W5Fields) : unpackW5 (packW5 f) = f := by
  simp [unpackW5, packW5]

end Sys2Proof
end

section
/-! PROOFS. The decoder and the encoder agree: the decoder reads a word exactly where it has one of the six
formats, as the instruction that encodes to it (30_encoding.md R43 to R48, R60, R62). -/

namespace Sys2Proof.Machine

open Sys2Proof

/-! ## Packing what was read, 30_encoding.md R43 to R48, R59 -/

theorem packW0_unpackW0 (w : Word) :
    packW0 (unpackW0 w) = w &&& ~~~formatMask .ext 0 ||| formatMatch 0 := by
  simp only [packW0, unpackW0, place_slice, ← BitVec.and_or_distrib_left]
  rfl

theorem packW1_unpackW1 (w : Word) :
    packW1 (unpackW1 w) = w &&& ~~~formatMask .ext 1 ||| formatMatch 1 := by
  simp only [packW1, unpackW1, place_slice, place_bit_flag, ← BitVec.and_or_distrib_left]
  rfl

theorem packW2_unpackW2 (w : Word) :
    packW2 (unpackW2 w) = w &&& ~~~formatMask .ext 2 ||| formatMatch 2 := by
  simp only [packW2, unpackW2, place_slice, place_bit_flag, ← BitVec.and_or_distrib_left]
  rfl

theorem packW3Base_unpackW3Base (w : Word) :
    packW3Base (unpackW3Base w) = w &&& ~~~formatMask .base 3 ||| formatMatch 3 := by
  simp only [packW3Base, unpackW3Base, place_slice, place_bit_flag, ← BitVec.and_or_distrib_left]
  rfl

theorem packW3Ext_unpackW3Ext (w : Word) :
    packW3Ext (unpackW3Ext w) = w &&& ~~~formatMask .ext 3 ||| formatMatch 3 := by
  have common : packW3Base ⟨flag w 18, slice w 15 2, slice w 3 12⟩
      = w &&& ~~~formatMask .base 3 ||| formatMatch 3 := packW3Base_unpackW3Base w
  simp only [packW3Ext, unpackW3Ext, common, place_slice, place_bit_flag]
  rw [BitVec.or_assoc, BitVec.or_assoc, BitVec.or_assoc, BitVec.or_comm (formatMatch 3),
    ← BitVec.or_assoc]
  simp only [← BitVec.and_or_distrib_left]
  rfl

theorem packW4_unpackW4 (w : Word) :
    packW4 (unpackW4 w) = w &&& ~~~formatMask .ext 4 ||| formatMatch 4 := by
  simp only [packW4, unpackW4, place_slice, place_bit_flag, ← BitVec.and_or_distrib_left]
  rfl

theorem packW5_unpackW5 (w : Word) :
    packW5 (unpackW5 w) = w &&& ~~~formatMask .ext 5 ||| formatMatch 5 := by
  simp only [packW5, unpackW5, place_slice, BitVec.or_assoc]
  rfl

/-! ## The fixed bits of a packed word -/

theorem packW0_fixed (f : W0Fields) : packW0 f &&& formatMask .ext 0 = formatMatch 0 :=
  (and_not_or_eq_iff rfl).mp (by rw [← packW0_unpackW0, unpackW0_packW0])

theorem packW1_fixed (f : W1Fields) : packW1 f &&& formatMask .ext 1 = formatMatch 1 :=
  (and_not_or_eq_iff rfl).mp (by rw [← packW1_unpackW1, unpackW1_packW1])

theorem packW2_fixed (f : W2Fields) : packW2 f &&& formatMask .ext 2 = formatMatch 2 :=
  (and_not_or_eq_iff rfl).mp (by rw [← packW2_unpackW2, unpackW2_packW2])

theorem packW3Base_fixed (f : W3BaseFields) :
    packW3Base f &&& formatMask .base 3 = formatMatch 3 :=
  (and_not_or_eq_iff rfl).mp (by rw [← packW3Base_unpackW3Base, unpackW3Base_packW3Base])

theorem packW3Ext_fixed (f : W3ExtFields) : packW3Ext f &&& formatMask .ext 3 = formatMatch 3 :=
  (and_not_or_eq_iff rfl).mp (by rw [← packW3Ext_unpackW3Ext, unpackW3Ext_packW3Ext])

theorem packW4_fixed (f : W4Fields) : packW4 f &&& formatMask .ext 4 = formatMatch 4 :=
  (and_not_or_eq_iff rfl).mp (by rw [← packW4_unpackW4, unpackW4_packW4])

theorem packW5_fixed (f : W5Fields) : packW5 f &&& formatMask .ext 5 = formatMatch 5 :=
  (and_not_or_eq_iff rfl).mp (by rw [← packW5_unpackW5, unpackW5_packW5])

/-! ## The formats -/

theorem hasFormat_iff (v : Variant) (k : Fin 6) (w : Word) :
    hasFormat v k w = true ↔
      w &&& formatMask v k = formatMatch k ∧ (k = 4 → slice w 20 3 ≠ 7) := by
  simp [hasFormat, imp_iff_not_or]

/-- A format but word 4's is its fixed bits. -/
theorem hasFormat_of_fixed {v : Variant} {k : Fin 6} {w : Word}
    (h : w &&& formatMask v k = formatMatch k) (hk : k ≠ 4) : hasFormat v k w = true :=
  (hasFormat_iff v k w).mpr ⟨h, fun h4 => absurd h4 hk⟩

theorem slice_packW4_dividerSelect (f : W4Fields) : slice (packW4 f) 20 3 = f.dividerSelect :=
  congrArg W4Fields.dividerSelect (unpackW4_packW4 f)

/-- A packed word 4 has its format unless its divider select is 7 (30_encoding.md R60). -/
theorem packW4_hasFormat {f : W4Fields} (h : f.dividerSelect ≠ 7) :
    hasFormat .ext 4 (packW4 f) = true := by
  rw [hasFormat_iff, slice_packW4_dividerSelect]
  exact ⟨packW4_fixed f, fun _ => h⟩

/-- BASE fixes the bits that EXT fixes, and in word 3 bits [23:21] as well (30_encoding.md R46). -/
theorem fixed_base_iff (k : Fin 6) (w : Word) :
    w &&& formatMask .base k = formatMatch k ↔
      w &&& formatMask .ext k = formatMatch k ∧ (k = 3 → slice w 21 3 = 0) := by
  by_cases hk : k = 3
  · subst hk
    have masks : formatMask .base 3 = formatMask .ext 3 ||| place (BitVec.allOnes 3) 21 := by decide
    have bits : formatMatch 3 = formatMatch 3 ||| place (0 : BitVec 3) 21 := by decide
    rw [masks, bits, and_or_eq_or_iff rfl rfl rfl rfl, ← bits,
      slice_eq_iff w 21 3 0 (by decide)]
    simp
  · have masks : formatMask .base k = formatMask .ext k := by
      revert k
      decide
    simp [masks, hk]

/-- EXT's formats hold every word of BASE's. -/
theorem hasFormat_ext_of_base {k : Fin 6} {w : Word} (h : hasFormat .base k w = true) :
    hasFormat .ext k w = true := by
  obtain ⟨fixed, select⟩ := (hasFormat_iff .base k w).mp h
  exact (hasFormat_iff .ext k w).mpr ⟨((fixed_base_iff k w).mp fixed).1, select⟩

theorem producible_iff (w : Word) :
    producible w = true ↔ ∃ k : Fin 6, hasFormat .ext k w = true := by
  simp only [producible, List.any_eq_true, List.mem_finRange, true_and, Bool.or_eq_true]
  exact exists_congr fun k => ⟨fun h => h.elim hasFormat_ext_of_base id, .inr⟩

/-- The address of register word `k` as a tag (30_encoding.md R42). -/
def tagOf (k : Fin 6) : BitVec 3 := BitVec.ofNat 3 k

theorem exists_tagOf {a : BitVec 3} (h : ¬5 < a.toNat) : ∃ k : Fin 6, a = tagOf k :=
  ⟨⟨a.toNat, by omega⟩, by simp [tagOf]⟩

@[simp] theorem tagOf_toNat (k : Fin 6) : (tagOf k).toNat = k := by
  revert k
  decide

/-- The fixed bits of word `k` are its tag, its unused bits, and in word 5 the reserved field
(30_encoding.md R42, R58, R59). -/
theorem fixed_ext_iff (k : Fin 6) (w : Word) :
    w &&& formatMask .ext k = formatMatch k ↔
      addressTag w = tagOf k ∧ w &&& unusedBits (tagOf k) = 0 ∧ (k = 5 → slice w 19 2 = 3) := by
  have tag : addressTag w = tagOf k ↔ w &&& place (BitVec.allOnes 3) 0 = place (tagOf k) 0 :=
    slice_eq_iff w 0 3 _ (by decide)
  rw [tag, slice_eq_iff w 19 2 3 (by decide)]
  by_cases hk : k = 5
  · subst hk
    have masks : formatMask .ext 5 = place (BitVec.allOnes 3) 0 ||| unusedBits (tagOf 5)
        ||| place (BitVec.allOnes 2) 19 := by decide
    have bits : formatMatch 5 = place (tagOf 5) 0 ||| 0 ||| place (3 : BitVec 2) 19 := by decide
    rw [masks, bits, and_or_eq_or_iff rfl rfl rfl rfl, and_or_eq_or_iff rfl rfl rfl rfl, and_assoc]
    simp
  · have tagAndUnused : ∀ j : Fin 6, j ≠ 5 →
        formatMask .ext j = place (BitVec.allOnes 3) 0 ||| unusedBits (tagOf j)
          ∧ formatMatch j = place (tagOf j) 0 ||| 0
          ∧ place (tagOf j) 0 &&& place (BitVec.allOnes 3) 0 = place (tagOf j) 0
          ∧ place (tagOf j) 0 &&& unusedBits (tagOf j) = 0 := by decide
    obtain ⟨mask, bits, inTag, outside⟩ := tagAndUnused k hk
    rw [mask, bits, and_or_eq_or_iff (b := 0) inTag BitVec.zero_and outside BitVec.zero_and]
    simp [hk]

/-- A word has a format exactly where the decoder's four tests pass: its tag is the address, its unused
bits are 0, its divider select is not 7 and its reserved field is 3 (30_encoding.md R60). -/
theorem hasFormat_ext_iff (k : Fin 6) (w : Word) :
    hasFormat .ext k w = true ↔
      addressTag w = tagOf k ∧ w &&& unusedBits (tagOf k) = 0
        ∧ (k = 4 → slice w 20 3 ≠ 7) ∧ (k = 5 → slice w 19 2 = 3) := by
  rw [hasFormat_iff, fixed_ext_iff]
  tauto

/-! ## The decoder -/

/-- The instruction a word of format `k` is read as. -/
def reading (v : Variant) (w : Word) : Fin 6 → Instr
  | 0 => .w0 (unpackW0 w)
  | 1 => .w1 (unpackW1 w)
  | 2 => .w2 (unpackW2 w)
  | 3 => if v = .base ∧ slice w 21 3 = 0 then .w3Base (unpackW3Base w) else .w3Ext (unpackW3Ext w)
  | 4 => .w4 (unpackW4 w)
  | 5 => .w5 (unpackW5 w)

theorem decodeWord_of_unusedAddress {w : Word} (h : 5 < (addressTag w).toNat) (v : Variant) :
    decodeWord v w = .error (.unusedAddress (addressTag w)) :=
  if_pos h

/-- The decoder's tests and its reading at a register's address. -/
theorem decodeWord_of_tag {k : Fin 6} {w : Word} (h : addressTag w = tagOf k) (v : Variant) :
    decodeWord v w =
      if w &&& unusedBits (tagOf k) ≠ 0 then .error (.unusedBitSet (tagOf k))
      else if k = 4 ∧ slice w 20 3 = 7 then .error .dividerSelectSeven
      else if k = 5 ∧ slice w 19 2 ≠ 3 then .error .reservedFieldNotThree
      else .ok (reading v w k) := by
  unfold decodeWord
  rw [h]
  fin_cases k <;> simp [tagOf, reading, apply_ite (Except.ok (ε := DecodeError))]

/-- A word decodes exactly where it has a format, and is read in that format. -/
theorem decodeWord_eq_ok_iff (v : Variant) (w : Word) (i : Instr) :
    decodeWord v w = .ok i ↔ ∃ k : Fin 6, hasFormat .ext k w = true ∧ reading v w k = i := by
  constructor
  · intro h
    by_cases hgt : 5 < (addressTag w).toNat
    · rw [decodeWord_of_unusedAddress hgt] at h
      cases h
    obtain ⟨k, tag⟩ := exists_tagOf hgt
    rw [decodeWord_of_tag tag] at h
    split_ifs at h with unused select reserved
    have format : hasFormat .ext k w = true :=
      (hasFormat_ext_iff k w).mpr ⟨tag, not_not.mp unused, fun h4 h7 => select ⟨h4, h7⟩,
        fun h5 => not_not.mp fun h3 => reserved ⟨h5, h3⟩⟩
    exact ⟨k, format, Except.ok.inj h⟩
  · rintro ⟨k, format, rfl⟩
    obtain ⟨tag, unused, select, reserved⟩ := (hasFormat_ext_iff k w).mp format
    rw [decodeWord_of_tag tag, if_neg (not_not.mpr unused), if_neg fun h => select h.1 h.2,
      if_neg fun h => h.2 (reserved h.1)]

/-- The decoder accepts exactly the words of the formats, under either variant. -/
theorem exists_decodeWord_eq_ok_iff (v : Variant) (w : Word) :
    (∃ i, decodeWord v w = .ok i) ↔ producible w = true := by
  rw [producible_iff]
  constructor
  · rintro ⟨i, h⟩
    obtain ⟨k, format, -⟩ := (decodeWord_eq_ok_iff v w i).mp h
    exact ⟨k, format⟩
  · rintro ⟨k, format⟩
    exact ⟨reading v w k, (decodeWord_eq_ok_iff v w _).mpr ⟨k, format, rfl⟩⟩

/-- The error for an address without a register is raised there only. -/
theorem decodeWord_ne_unusedAddress {w : Word} (h : ¬5 < (addressTag w).toNat) (v : Variant)
    (a : BitVec 3) : decodeWord v w ≠ .error (.unusedAddress a) := by
  obtain ⟨k, tag⟩ := exists_tagOf h
  rw [decodeWord_of_tag tag]
  split_ifs <;> simp

/-! ## The reading of a word -/

/-- Bits [23:21] of a word 3 are EXT's three (30_encoding.md R46, R49). -/
theorem hasExtOnlyBit_unpackW3Ext (w : Word) :
    (unpackW3Ext w).hasExtOnlyBit = true ↔ slice w 21 3 ≠ 0 := by
  simp only [W3ExtFields.hasExtOnlyBit, unpackW3Ext, Bool.or_eq_true, bne_iff_ne, ne_eq,
    ← BitVec.toNat_inj, slice_toNat, flag_eq, decide_eq_true_eq]
  bv_omega

theorem encode_reading {v : Variant} {k : Fin 6} {w : Word} (h : hasFormat .ext k w = true) :
    encode (reading v w k) = .word w := by
  obtain ⟨fixed, -⟩ := (hasFormat_iff .ext k w).mp h
  have same {M m x : Word} (hx : x = w &&& ~~~M ||| m) (hm : m &&& M = m) (hw : w &&& M = m) :
      Command.word x = .word w := by rw [hx, (and_not_or_eq_iff hm).mpr hw]
  match k with
  | 0 => exact same (packW0_unpackW0 w) rfl fixed
  | 1 => exact same (packW1_unpackW1 w) rfl fixed
  | 2 => exact same (packW2_unpackW2 w) rfl fixed
  | 3 =>
    by_cases hbase : v = .base ∧ slice w 21 3 = 0
    · rw [reading, if_pos hbase]
      exact same (packW3Base_unpackW3Base w) rfl
        ((fixed_base_iff 3 w).mpr ⟨fixed, fun _ => hbase.2⟩)
    · rw [reading, if_neg hbase]
      exact same (packW3Ext_unpackW3Ext w) rfl fixed
  | 4 => exact same (packW4_unpackW4 w) rfl fixed
  | 5 => exact same (packW5_unpackW5 w) rfl fixed

theorem reading_wf {v : Variant} {k : Fin 6} {w : Word} (h : hasFormat .ext k w = true) :
    (reading v w k).wf v = true := by
  match k with
  | 0 | 1 | 2 | 5 => rfl
  | 3 =>
    by_cases hbase : v = .base ∧ slice w 21 3 = 0
    · rw [reading, if_pos hbase, hbase.1]
      rfl
    · rw [reading, if_neg hbase]
      cases v with
      | ext => rfl
      | base => exact (hasExtOnlyBit_unpackW3Ext w).mpr fun h0 => hbase ⟨rfl, h0⟩
  | 4 =>
    have select := ((hasFormat_iff .ext 4 w).mp h).2 rfl
    exact bne_iff_ne.mpr select

/-! ## The round trips -/

theorem decode_encode {v : Variant} {i : Instr} (h : i.wf v = true) : decode v (encode i) = .ok i := by
  have read {w : Word} (k : Fin 6) (format : hasFormat .ext k w = true) (hi : reading v w k = i) :
      decodeWord v w = .ok i := (decodeWord_eq_ok_iff v w i).mpr ⟨k, format, hi⟩
  cases i with
  | solve | encode => rfl
  | w0 f => exact read 0 (hasFormat_of_fixed (packW0_fixed f) (by decide)) (by simp [reading])
  | w1 f => exact read 1 (hasFormat_of_fixed (packW1_fixed f) (by decide)) (by simp [reading])
  | w2 f => exact read 2 (hasFormat_of_fixed (packW2_fixed f) (by decide)) (by simp [reading])
  | w3Ext f =>
    refine read 3 (hasFormat_of_fixed (packW3Ext_fixed f) (by decide)) ?_
    have notBase : ¬(v = .base ∧ slice (packW3Ext f) 21 3 = 0) := by
      rintro ⟨rfl, plain⟩
      have extOnly : f.hasExtOnlyBit = true := h
      rw [← unpackW3Ext_packW3Ext f, hasExtOnlyBit_unpackW3Ext] at extOnly
      exact extOnly plain
    rw [reading, if_neg notBase, unpackW3Ext_packW3Ext]
  | w3Base f =>
    have fixed := (fixed_base_iff 3 _).mp (packW3Base_fixed f)
    have hbase : v = .base := eq_of_beq h
    refine read 3 (hasFormat_of_fixed fixed.1 (by decide)) ?_
    rw [reading, if_pos ⟨hbase, fixed.2 rfl⟩, unpackW3Base_packW3Base]
  | w4 f => exact read 4 (packW4_hasFormat (bne_iff_ne.mp h)) (by simp [reading])
  | w5 f => exact read 5 (hasFormat_of_fixed (packW5_fixed f) (by decide)) (by simp [reading])

theorem wf_and_encode_of_decode {v : Variant} {c : Command} {i : Instr} (h : decode v c = .ok i) :
    i.wf v = true ∧ encode i = c := by
  cases c with
  | op sel =>
    obtain rfl | rfl := BitVec.eq_zero_or_eq_one sel
    all_goals
      cases h
      exact ⟨rfl, rfl⟩
  | word w =>
    obtain ⟨k, format, rfl⟩ := (decodeWord_eq_ok_iff v w i).mp h
    exact ⟨reading_wf format, encode_reading format⟩

/-! ## The step on a word of no format -/

theorem step_of_unusedAddress {s : State} {c : Command} {rest : List Command} {a : BitVec 3}
    (hcalls : s.calls = c :: rest) (h : decode s.encodeIn.variant c = .error (.unusedAddress a)) :
    step s = .fault (.noRegisterAt a) := by
  simp only [step, hcalls, h]

theorem step_of_decode_error {s : State} {c : Command} {rest : List Command} {e : DecodeError}
    (hcalls : s.calls = c :: rest) (h : decode s.encodeIn.variant c = .error e)
    (he : ∀ a, e ≠ .unusedAddress a) : step s = .refused (.neverProduced e) := by
  cases e with
  | unusedAddress a => exact absurd rfl (he a)
  | unusedBitSet | dividerSelectSeven | reservedFieldNotThree => simp only [step, hcalls, h]

theorem addressTag_toNat (w : Word) : (addressTag w).toNat = w.toNat % 8 := by
  rw [addressTag, slice_toNat]
  simp

/-! ## The obligations -/

/-- Settles O1: a packed word has its format, and reading it in that format gives the fields back. -/
theorem decodeInvertsEncode : Obligations.DecodeInvertsEncode := by
  unfold Obligations.DecodeInvertsEncode
  intro v i h
  exact decode_encode h

/-- Settles O2: packing the fields read from a word puts back the fixed bits its format demands. -/
theorem encodeInvertsDecode : Obligations.EncodeInvertsDecode := by
  unfold Obligations.EncodeInvertsDecode
  intro v c i h
  exact wf_and_encode_of_decode h

/-- Settles O3: the decoder's tests are the formats' masks. -/
theorem decoderAcceptsExactlyTheFormats : Obligations.DecoderAcceptsExactlyTheFormats := by
  unfold Obligations.DecoderAcceptsExactlyTheFormats
  intro v w
  exact exists_decodeWord_eq_ok_iff v w

/-- Settles O7: a word of no format is a decoding error, and its kind depends on the address alone. -/
theorem neverProducedWordsStop : Obligations.NeverProducedWordsStop := by
  unfold Obligations.NeverProducedWordsStop
  intro s w rest hcalls hnot
  rw [← addressTag_toNat]
  by_cases hgt : 5 < (addressTag w).toNat
  · rw [if_pos hgt]
    exact step_of_unusedAddress hcalls (decodeWord_of_unusedAddress hgt _)
  · rw [if_neg hgt]
    cases hdecode : decodeWord s.encodeIn.variant w with
    | ok i =>
      have produced := (exists_decodeWord_eq_ok_iff _ w).mp ⟨i, hdecode⟩
      rw [hnot] at produced
      cases produced
    | error e =>
      refine ⟨e, step_of_decode_error hcalls hdecode fun a he => ?_⟩
      exact decodeWord_ne_unusedAddress hgt _ a (he ▸ hdecode)

/-- Settles O4: each word is the encoding of the instruction with the fields given, so the round trip
reads it back. -/
theorem sampleWordsDecode : Obligations.SampleWordsDecode := by
  unfold Obligations.SampleWordsDecode
  refine ⟨decode_encode (i := .solve) rfl, decode_encode (i := .encode) rfl, ?_, ?_, ?_, ?_, ?_⟩
  · exact decode_encode (i := .w0 ⟨89, 3⟩) rfl
  · exact decode_encode (i := .w1 ⟨false, 1, 1, 625⟩) rfl
  · exact decode_encode (i := .w3Ext ⟨0, 1, true, false, 0, 150⟩) rfl
  · exact decode_encode (i := .w3Base ⟨false, 0, 150⟩) rfl
  · exact decode_encode (i := .w5 ⟨1⟩) rfl

end Sys2Proof.Machine
end

section
/-! PROOFS. The words ENCODE returns: each has the format of its index, and its fields are the operands of
41_register_encoder.md R110 to R115 (30_encoding.md R42, R52 to R59). -/

namespace Sys2Proof.Machine

open Sys2Proof

/-! ## What a successful ENCODE has looked up and packed -/

theorem words_of_exec_encode {s t : State} {W : RegisterWords} (h : exec .encode s = .next t)
    (hlast : t.last = .encoded W) :
    ∃ codes, lookupCodes s.config s.encodeIn = .ok codes ∧ W = packWords s.encodeIn codes := by
  obtain ⟨W', hW', rfl⟩ | ⟨e, -, rfl⟩ := (execEncode_eq_next_iff s t).mp h
  · obtain rfl : W' = W := OpResult.encoded.inj hlast
    obtain ⟨-, codes, hcodes, hpack⟩ := (encodeOp_eq_ok_iff _ _ _).mp hW'
    exact ⟨codes, hcodes, hpack⟩
  · cases hlast

/-- The divider select looked up is the exponent of the output divider, so it is never 7
(41_register_encoder.md R108). -/
theorem dividerSelect_of_lookupCodes {c : Config} {p : EncodeInputs} {codes : Codes}
    (h : lookupCodes c p = .ok codes) :
    p.outputDivider.toNat = 2 ^ codes.dividerSelect.toNat ∧ codes.dividerSelect.toNat ≤ 6 := by
  obtain ⟨-, -, -, -, k, hk, hselect⟩ := (lookupCodes_eq_ok_iff c p codes).mp h
  obtain ⟨hk6, hdivider⟩ := (log2Exact_eq_some_iff _ k).mp hk
  have exponent : codes.dividerSelect.toNat = k := by
    rw [hselect, BitVec.toNat_ofNat]
    omega
  rw [exponent]
  exact ⟨hdivider, hk6⟩

/-! ## The format of each word -/

theorem wordThree_hasFormat (p : EncodeInputs) (codes : Codes) :
    hasFormat .ext 3 (wordThree p codes) = true := by
  unfold wordThree
  cases p.variant with
  | ext => exact hasFormat_of_fixed (packW3Ext_fixed _) (by decide)
  | base => exact hasFormat_ext_of_base (hasFormat_of_fixed (packW3Base_fixed _) (by decide))

theorem packWords_ok {c : Config} {p : EncodeInputs} {codes : Codes}
    (h : lookupCodes c p = .ok codes) : (packWords p codes).ok := by
  intro i
  match i with
  | 0 => exact hasFormat_of_fixed (packW0_fixed _) (by decide)
  | 1 => exact hasFormat_of_fixed (packW1_fixed _) (by decide)
  | 2 => exact hasFormat_of_fixed (packW2_fixed _) (by decide)
  | 3 => exact wordThree_hasFormat p codes
  | 4 =>
    have notSeven : codes.dividerSelect ≠ 7 := by
      intro h7
      have bound := (dividerSelect_of_lookupCodes h).2
      rw [h7] at bound
      exact absurd bound (by decide)
    exact packW4_hasFormat notSeven
  | 5 => exact hasFormat_of_fixed (packW5_fixed _) (by decide)

theorem encoded_ok {s t : State} {W : RegisterWords} (h : exec .encode s = .next t)
    (hlast : t.last = .encoded W) : W.ok := by
  obtain ⟨codes, hcodes, rfl⟩ := words_of_exec_encode h hlast
  exact packWords_ok hcodes

/-! ## What a format says about a word -/

theorem toNat_mod_eight_of_hasFormat {k : Fin 6} {w : Word} (h : hasFormat .ext k w = true) :
    w.toNat % 8 = k := by
  obtain ⟨tag, -⟩ := (hasFormat_ext_iff k w).mp h
  rw [← addressTag_toNat, tag, tagOf_toNat]

/-- Bit 31 is an unused bit of every format (30_encoding.md R50). -/
theorem toNat_lt_of_hasFormat {k : Fin 6} {w : Word} (h : hasFormat .ext k w = true) :
    w.toNat < 2 ^ 31 := by
  obtain ⟨fixed, -⟩ := (hasFormat_iff .ext k w).mp h
  have topFixed : ∀ j : Fin 6, (formatMask .ext j).msb = true ∧ (formatMatch j).msb = false := by
    decide
  have top := congrArg BitVec.msb fixed
  rw [BitVec.msb_and, (topFixed k).1, (topFixed k).2, Bool.and_true] at top
  exact BitVec.toNat_lt_of_msb_false top

theorem unusedBits_of_hasFormat {k : Fin 6} {w : Word} (h : hasFormat .ext k w = true) :
    w &&& unusedBits (tagOf k) = 0 := by
  obtain ⟨-, unused, -⟩ := (hasFormat_ext_iff k w).mp h
  exact unused

theorem reservedField_of_hasFormat {w : Word} (h : hasFormat .ext 5 w = true) :
    w &&& 0x00180000 = 0x00180000 := by
  obtain ⟨-, -, -, reserved⟩ := (hasFormat_ext_iff 5 w).mp h
  exact (slice_eq_iff w 19 2 3 (by decide)).mp (reserved rfl)

/-! ## The fields of the words -/

theorem flag_packW2_fracModeActive (f : W2Fields) : flag (packW2 f) 8 = f.fracModeActive :=
  congrArg W2Fields.fracModeActive (unpackW2_packW2 f)

theorem flag_packW2_abpNot10ns (f : W2Fields) : flag (packW2 f) 7 = f.abpNot10ns :=
  congrArg W2Fields.abpNot10ns (unpackW2_packW2 f)

theorem slice_packW1_phase (f : W1Fields) : slice (packW1 f) 15 12 = f.phase :=
  congrArg W1Fields.phase (unpackW1_packW1 f)

theorem fracModeFlag_eq_true_iff (frac : Nat) : fracModeFlag frac = true ↔ frac ≠ 0 :=
  bne_iff_ne

theorem abpFlag_eq_true_iff (width : Rat) : abpFlag width = true ↔ width ≠ 10 :=
  bne_iff_ne

theorem phaseOperand_toNat (valid : Bool) (value : BitVec 12) :
    (phaseOperand valid value).toNat = if valid then value.toNat else 1 := by
  cases valid <;> rfl

/-! ## The obligations -/

/-- Settles O36: a format fixes the address tag and leaves bit 31 unused. -/
theorem encodedWordsCarryTheirAddress : Obligations.EncodedWordsCarryTheirAddress := by
  unfold Obligations.EncodedWordsCarryTheirAddress
  intro s t W i h hlast
  have format : hasFormat .ext i (W.get i) = true := encoded_ok h hlast i
  exact ⟨toNat_mod_eight_of_hasFormat format, toNat_lt_of_hasFormat format⟩

/-- Settles O37: the unused bits and the reserved field are fixed bits of the formats. -/
theorem encodedUnusedBitsAreZero : Obligations.EncodedUnusedBitsAreZero := by
  unfold Obligations.EncodedUnusedBitsAreZero
  intro s t W h hlast
  have format : W.ok := encoded_ok h hlast
  have unused (k : Fin 6) : W.get k &&& unusedBits (tagOf k) = 0 := unusedBits_of_hasFormat (format k)
  exact ⟨unused 0, unused 1, unused 2, unused 3, unused 4, unused 5,
    reservedField_of_hasFormat (format 5)⟩

/-- Settles O38: bits 8 and 7 of word 2 are the flags computed from FRAC and from the width. -/
theorem encodedComputedFlags : Obligations.EncodedComputedFlags := by
  unfold Obligations.EncodedComputedFlags
  intro s t W h hlast
  obtain ⟨codes, -, rfl⟩ := words_of_exec_encode h hlast
  have bit8 := flag_packW2_fracModeActive (fieldsW2 s.encodeIn codes)
  have bit7 := flag_packW2_abpNot10ns (fieldsW2 s.encodeIn codes)
  constructor
  · rw [← fracModeFlag_eq_true_iff]
    exact Bool.eq_iff_iff.mp bit8
  · rw [← abpFlag_eq_true_iff]
    exact Bool.eq_iff_iff.mp bit7

/-- Settles O39: bits [26:15] of word 1 are the phase operand. -/
theorem encodedPhaseValue : Obligations.EncodedPhaseValue := by
  unfold Obligations.EncodedPhaseValue
  intro s t W h hlast
  obtain ⟨codes, -, rfl⟩ := words_of_exec_encode h hlast
  calc (packWords s.encodeIn codes).w1.toNat / 2 ^ 15 % 2 ^ 12
      = (slice (packW1 (fieldsW1 s.encodeIn)) 15 12).toNat := (slice_toNat _ 15 12).symm
    _ = (phaseOperand s.encodeIn.phaseValid s.encodeIn.phaseValue).toNat :=
        congrArg BitVec.toNat (slice_packW1_phase _)
    _ = _ := phaseOperand_toNat _ _

/-- Settles O40: bits [22:20] of word 4 are the exponent that the divider's check has found. -/
theorem encodedDividerSelect : Obligations.EncodedDividerSelect := by
  unfold Obligations.EncodedDividerSelect
  intro s t W h hlast
  obtain ⟨codes, hcodes, rfl⟩ := words_of_exec_encode h hlast
  have select : (packWords s.encodeIn codes).w4.toNat / 2 ^ 20 % 8 = codes.dividerSelect.toNat :=
    calc (packWords s.encodeIn codes).w4.toNat / 2 ^ 20 % 8
        = (slice (packW4 (fieldsW4 s.encodeIn codes)) 20 3).toNat := (slice_toNat _ 20 3).symm
      _ = codes.dividerSelect.toNat := congrArg BitVec.toNat (slice_packW4_dividerSelect _)
  rw [select]
  exact (dividerSelect_of_lookupCodes hcodes).1

end Sys2Proof.Machine
end

section
/-! PROOFS. SOLVE's steps as 40_divider_solver.md states them: the functions of steps 1 to 5 compute the
values that `SolveStarts` and `SolveReaches` name, each check that fails ends SOLVE with its error, and a
solution is returned exactly where every check passes (R71 to R82). -/

namespace Sys2Proof.Machine

open Sys2Proof

/-! ## How SOLVE ends, by what its steps answer -/

theorem exec_solve_of_ok {s : State} {sol : DividerSolution}
    (h : solveOp s.config s.solveIn = .ok sol) :
    exec .solve s = .next { s with last := .solved sol } := by
  rw [exec_solve_eq, solveResult, h]
  rfl

theorem exec_solve_of_error {s : State} {e : ConfigError}
    (h : solveOp s.config s.solveIn = .error e) :
    exec .solve s = .next { s with last := .failed (.invalidConfiguration e) } := by
  rw [exec_solve_eq, solveResult, h]
  rfl

theorem solveOp_of_exec_solve {s t : State} {sol : DividerSolution} (h : exec .solve s = .next t)
    (hlast : t.last = .solved sol) : solveOp s.config s.solveIn = .ok sol := by
  obtain ⟨sol', hsol, rfl⟩ | ⟨e, -, rfl⟩ := (execSolve_eq_next_iff s t).mp h
  · obtain rfl : sol' = sol := OpResult.solved.inj hlast
    exact hsol
  · cases hlast

/-! ## Steps 1 and 2, 40_divider_solver.md R71 to R73 -/

theorem solveStarts_iff (s : State) (pfd : Rat) (k : Nat) :
    SolveStarts s pfd k ↔
      s.solveIn.rCounter ≠ 0 ∧ s.solveIn.refFreq.mhz ≠ 0 ∧ pfd = pfdOf s.solveIn
        ∧ dividerExponent s.config.lowFreqPolicy s.solveIn.targetFreq.mhz = some k := by
  rw [dividerExponent_eq_some_iff]
  constructor
  · rintro ⟨hr, hf, hpfd, hk⟩
    exact ⟨hr, hf, hpfd, hk⟩
  · rintro ⟨hr, hf, hpfd, hk⟩
    exact ⟨hr, hf, hpfd, hk⟩

theorem SolveStarts.pfd_pos {s : State} {pfd : Rat} {k : Nat} (h : SolveStarts s pfd k) :
    0 < pfd := by
  obtain ⟨hr, hf, rfl, -⟩ := (solveStarts_iff s pfd k).mp h
  exact pfdOf_pos s.solveIn hr hf

theorem SelectsDivider.le_six {policy : LowFreqPolicy} {target : Rat} {k : Nat}
    (h : SelectsDivider policy target k) : k ≤ 6 := by
  obtain ⟨hk, -⟩ | ⟨-, rfl, -⟩ := h
  · exact hk
  · exact le_refl 6

/-- The dividers of 40_divider_solver.md R73 fit in the 7 bits of the result. -/
theorem outputDivider_toNat {k : Nat} (h : k ≤ 6) : (BitVec.ofNat 7 (2 ^ k)).toNat = 2 ^ k := by
  have small : 2 ^ k ≤ 2 ^ 6 := Nat.pow_le_pow_right (by decide) h
  rw [BitVec.toNat_ofNat, Nat.mod_eq_of_lt (by omega)]

theorem solveOp_of_undefined (c : Config) {p : SolveInputs}
    (h : p.rCounter = 0 ∨ p.refFreq.mhz = 0) : solveOp c p = .error ⟨.pfdUndefined, none⟩ :=
  if_pos h

theorem solveOp_of_tooLow {c : Config} {p : SolveInputs} (hr : p.rCounter ≠ 0)
    (hf : p.refFreq.mhz ≠ 0) (h : dividerExponent c.lowFreqPolicy p.targetFreq.mhz = none) :
    solveOp c p = .error ⟨.freqTooLow, some p.targetFreq.mhz⟩ := by
  rw [solveOp, if_neg (not_or.mpr ⟨hr, hf⟩), h]

theorem solveOp_of_starts {s : State} {pfd : Rat} {k : Nat} (h : SolveStarts s pfd k) :
    solveOp s.config s.solveIn = solveFrom s.config s.solveIn pfd k := by
  obtain ⟨hr, hf, rfl, hk⟩ := (solveStarts_iff s pfd k).mp h
  rw [solveOp, if_neg (not_or.mpr ⟨hr, hf⟩), hk]

/-- The least exponent is found between two neighbouring thresholds of 40_divider_solver.md R73. -/
theorem dividerExponent_of_between (policy : LowFreqPolicy) {target : Rat} {k : Nat} (hk : k < 6)
    (low : 2200 / 2 ^ (k + 1) ≤ target) (high : target < 2200 / 2 ^ k) :
    dividerExponent policy target = some (k + 1) := by
  rw [dividerExponent_eq_some_iff]
  refine .inl ⟨hk, low, fun j hj => high.trans_le ?_⟩
  have antitone : (2 : Rat) ^ j ≤ 2 ^ k := pow_le_pow_right₀ one_le_two (Nat.lt_succ_iff.mp hj)
  exact div_le_div_of_nonneg_left (by norm_num) (by positivity) antitone

/-! ## Steps 3 to 5, 40_divider_solver.md R74 to R78 -/

theorem feedbackN_eq (p : SolveInputs) (k : Nat) (pfd : Rat) :
    feedbackN p k pfd = p.targetFreq.mhz * (if p.feedbackSelect = 1 then 2 ^ k else 1) / pfd := by
  unfold feedbackN
  split_ifs
  · rfl
  · rw [mul_one]

/-- The values of step 4 are the only ones 40_divider_solver.md R75 to R77 allow. -/
theorem solveReaches_iff (s : State) (pfd : Rat) (k int mod frac : Nat) :
    SolveReaches s pfd k int mod frac ↔
      SolveStarts s pfd k ∧ mod = roundNat s.config.roundMode (1000 * pfd) ∧ mod ≠ 0
        ∧ int = natFloor (feedbackN s.solveIn k pfd)
        ∧ frac = roundNat s.config.roundMode ((feedbackN s.solveIn k pfd - int) * mod) := by
  have modRounds (h : SolveStarts s pfd k) :=
    roundNat_eq_iff s.config.roundMode (1000 * pfd) mod (by linarith [h.pfd_pos])
  have intFloors (h : SolveStarts s pfd k) :=
    natFloor_eq_iff (feedbackN s.solveIn k pfd) int (feedbackN_nonneg s.solveIn k pfd h.pfd_pos)
  have fracRounds (h : (int : Rat) ≤ feedbackN s.solveIn k pfd) :=
    roundNat_eq_iff s.config.roundMode ((feedbackN s.solveIn k pfd - int) * mod) frac
      (mul_nonneg (sub_nonneg.mpr h) mod.cast_nonneg)
  constructor
  · rintro ⟨starts, hmod, hpos, n, hn, hle, hlt, hfrac⟩
    obtain rfl : n = feedbackN s.solveIn k pfd := by rw [hn, feedbackN_eq]
    exact ⟨starts, ((modRounds starts).mpr hmod).symm, hpos,
      ((intFloors starts).mpr ⟨hle, hlt⟩).symm, ((fracRounds hle).mpr hfrac).symm⟩
  · rintro ⟨starts, hmod, hpos, hint, hfrac⟩
    obtain ⟨hle, hlt⟩ := (intFloors starts).mp hint.symm
    exact ⟨starts, (modRounds starts).mp hmod.symm, hpos, _, feedbackN_eq _ _ _, hle, hlt,
      (fracRounds hle).mp hfrac.symm⟩

theorem solveFrom_of_zero_mod {c : Config} {pfd : Rat} (h : roundNat c.roundMode (1000 * pfd) = 0)
    (p : SolveInputs) (k : Nat) : solveFrom c p pfd k = .error ⟨.modZero, some pfd⟩ :=
  if_pos h

theorem solveOp_of_reaches {s : State} {pfd : Rat} {k int mod frac : Nat}
    (h : SolveReaches s pfd k int mod frac) :
    solveOp s.config s.solveIn =
      finishSolve s.solveIn pfd k int (reduceFraction s.solveIn.gcdEnable mod frac).1
        (reduceFraction s.solveIn.gcdEnable mod frac).2 := by
  obtain ⟨starts, rfl, hpos, rfl, rfl⟩ := (solveReaches_iff s pfd k int mod frac).mp h
  rw [solveOp_of_starts starts]
  exact if_neg hpos

/-- The divisor of step 5: the greatest common divisor, or 1 without reduction. -/
def fractionDivisor (gcdEnable : Bool) (mod frac : Nat) : Nat :=
  if gcdEnable then Nat.gcd mod frac else 1

theorem reduceFraction_fst (gcdEnable : Bool) (mod frac : Nat) :
    (reduceFraction gcdEnable mod frac).1 =
      if mod / fractionDivisor gcdEnable mod frac = 1 then 2
      else mod / fractionDivisor gcdEnable mod frac := rfl

theorem reduceFraction_snd (gcdEnable : Bool) (mod frac : Nat) :
    (reduceFraction gcdEnable mod frac).2 = frac / fractionDivisor gcdEnable mod frac := rfl

theorem fractionDivisor_dvd (gcdEnable : Bool) (mod frac : Nat) :
    fractionDivisor gcdEnable mod frac ∣ mod ∧ fractionDivisor gcdEnable mod frac ∣ frac := by
  cases gcdEnable with
  | false => exact ⟨one_dvd mod, one_dvd frac⟩
  | true => exact ⟨Nat.gcd_dvd_left mod frac, Nat.gcd_dvd_right mod frac⟩

theorem fractionDivisor_pos {mod : Nat} (h : mod ≠ 0) (gcdEnable : Bool) (frac : Nat) :
    0 < fractionDivisor gcdEnable mod frac :=
  Nat.pos_of_dvd_of_pos (fractionDivisor_dvd gcdEnable mod frac).1 (Nat.pos_of_ne_zero h)

/-- The reduction does not alter whether FRAC is 0 (40_divider_solver.md R79 (c)). -/
theorem reduceFraction_snd_eq_zero_iff {mod : Nat} (h : mod ≠ 0) (gcdEnable : Bool) (frac : Nat) :
    (reduceFraction gcdEnable mod frac).2 = 0 ↔ frac = 0 := by
  have divides := (fractionDivisor_dvd gcdEnable mod frac).2
  have positive := fractionDivisor_pos h gcdEnable frac
  rw [reduceFraction_snd, Nat.div_eq_zero_iff_lt positive]
  exact ⟨Nat.eq_zero_of_dvd_of_lt divides, fun h0 => h0 ▸ positive⟩

/-! ## Steps 6 to 9, 40_divider_solver.md R79 to R82 -/

/-- Step 6 asks of FRAC only whether it is 0, so it answers as for the FRAC before the reduction. -/
theorem pfdCeiling_reduceFraction {mod : Nat} (h : mod ≠ 0) (p : SolveInputs) (pfd : Rat)
    (frac : Nat) :
    pfdCeiling p pfd (reduceFraction p.gcdEnable mod frac).2 = pfdCeiling p pfd frac := by
  simp only [pfdCeiling, ne_eq, reduceFraction_snd_eq_zero_iff h]

/-- Conditions under which SOLVE returns a solution; MOD and FRAC are those before the reduction. -/
structure SolvePasses (s : State) (pfd : Rat) (k int mod frac : Nat) (d : BitVec 8) : Prop where
  reaches : SolveReaches s pfd k int mod frac
  pfdAllowed : PfdAllowed s.solveIn pfd frac
  takesDivider : TakesDivider s.solveIn pfd d
  clockCeiling : bandSelectFreq pfd d ≤ 500
  clockMode : 125 < bandSelectFreq pfd d → s.solveIn.variant = .ext ∧ s.solveIn.bsClkMode = 1

/-- The solution of step 9 from the values of steps 2 to 5 and 7. -/
def solutionOf (gcdEnable : Bool) (k int mod frac : Nat) (d : BitVec 8) : DividerSolution where
  int := int
  mod := (reduceFraction gcdEnable mod frac).1
  frac := (reduceFraction gcdEnable mod frac).2
  outputDivider := BitVec.ofNat 7 (2 ^ k)
  bsClkDiv := d

/-- SOLVE returns a solution exactly where the rules pass it, and it is the one they give. -/
theorem solveOp_eq_ok_iff_passes (s : State) (sol : DividerSolution) :
    solveOp s.config s.solveIn = .ok sol ↔
      ∃ pfd k int mod frac d, SolvePasses s pfd k int mod frac d
        ∧ sol = solutionOf s.solveIn.gcdEnable k int mod frac d := by
  constructor
  · intro h
    obtain ⟨hr, hf, k, hk, hfrom⟩ := (solveOp_eq_ok_iff _ _ _).mp h
    obtain ⟨int, mod, frac, hint, hmod, hpos, hfrac, hfinish⟩ :=
      (solveFrom_eq_ok_iff _ _ _ _ _).mp hfrom
    have starts : SolveStarts s (pfdOf s.solveIn) k := (solveStarts_iff _ _ _).mpr ⟨hr, hf, rfl, hk⟩
    have reaches : SolveReaches s (pfdOf s.solveIn) k int mod frac :=
      (solveReaches_iff _ _ _ _ _ _).mpr ⟨starts, hmod, hpos, hint, hfrac⟩
    rw [finishSolve_eq_ok_iff, pfdCeiling_reduceFraction hpos, pfdCeiling_eq_none_iff] at hfinish
    obtain ⟨hpfd, d, hd, hclock, hsol⟩ := hfinish
    obtain ⟨hceiling, hmode⟩ := (bandSelectCeiling_eq_none_iff _ _).mp hclock
    exact ⟨_, k, int, mod, frac, d,
      ⟨reaches, hpfd, (bandSelectDivider_eq_ok_iff _ _ _).mp hd, hceiling, hmode⟩, hsol⟩
  · rintro ⟨pfd, k, int, mod, frac, d, ⟨reaches, hpfd, hd, hceiling, hmode⟩, rfl⟩
    rw [solveOp_of_reaches reaches, finishSolve_eq_ok_iff,
      pfdCeiling_reduceFraction reaches.modPositive, pfdCeiling_eq_none_iff]
    exact ⟨hpfd, d, (bandSelectDivider_eq_ok_iff _ _ _).mpr hd,
      (bandSelectCeiling_eq_none_iff _ _).mpr ⟨hceiling, hmode⟩, rfl⟩

/-! ## The error of the first check that fails -/

section
variable {s : State} {pfd : Rat} {k int mod frac : Nat} {d : BitVec 8} {e : ConfigError}

theorem exec_solve_of_pfdCeiling (reaches : SolveReaches s pfd k int mod frac)
    (h : pfdCeiling s.solveIn pfd frac = some e) :
    exec .solve s = .next { s with last := .failed (.invalidConfiguration e) } := by
  apply exec_solve_of_error
  rw [solveOp_of_reaches reaches, finishSolve, pfdCeiling_reduceFraction reaches.modPositive, h]

theorem exec_solve_of_bandSelectDivider (reaches : SolveReaches s pfd k int mod frac)
    (allowed : PfdAllowed s.solveIn pfd frac) (h : bandSelectDivider s.solveIn pfd = .error e) :
    exec .solve s = .next { s with last := .failed (.invalidConfiguration e) } := by
  apply exec_solve_of_error
  rw [solveOp_of_reaches reaches, finishSolve, pfdCeiling_reduceFraction reaches.modPositive,
    (pfdCeiling_eq_none_iff _ _ _).mpr allowed, h]

theorem exec_solve_of_bandSelectCeiling (reaches : SolveReaches s pfd k int mod frac)
    (allowed : PfdAllowed s.solveIn pfd frac) (takes : TakesDivider s.solveIn pfd d)
    (h : bandSelectCeiling s.solveIn (bandSelectFreq pfd d) = some e) :
    exec .solve s = .next { s with last := .failed (.invalidConfiguration e) } := by
  apply exec_solve_of_error
  rw [solveOp_of_reaches reaches, finishSolve, pfdCeiling_reduceFraction reaches.modPositive,
    (pfdCeiling_eq_none_iff _ _ _).mpr allowed, (bandSelectDivider_eq_ok_iff _ _ _).mpr takes]
  simp only [h]

end

/-! ## The obligations -/

/-- Settles O15: the conditions given are those under which a solution is returned. -/
theorem solveReturnsTheSolution : Obligations.SolveReturnsTheSolution := by
  unfold Obligations.SolveReturnsTheSolution
  intro s pfd k int mod frac d reaches allowed takes ceiling mode
  exact exec_solve_of_ok ((solveOp_eq_ok_iff_passes s _).mpr
    ⟨pfd, k, int, mod, frac, d, ⟨reaches, allowed, takes, ceiling, mode⟩, rfl⟩)

/-- Settles O16: a solution returned has passed every check, and its divider of at most 64 fits in 7
bits. -/
theorem solutionOnlyByTheRules : Obligations.SolutionOnlyByTheRules := by
  unfold Obligations.SolutionOnlyByTheRules
  intro s t sol h hlast
  obtain ⟨pfd, k, int, mod, frac, d, passes, rfl⟩ :=
    (solveOp_eq_ok_iff_passes s sol).mp (solveOp_of_exec_solve h hlast)
  exact ⟨pfd, k, int, mod, frac, d, passes.reaches, passes.pfdAllowed, passes.takesDivider,
    passes.clockCeiling, passes.clockMode, rfl, rfl,
    outputDivider_toNat passes.reaches.starts.divider.le_six, rfl, rfl⟩

/-- Settles O18: 34.375 MHz is the threshold of the largest divider, 2200 / 64. -/
theorem solveRejectsLowTarget : Obligations.SolveRejectsLowTarget := by
  unfold Obligations.SolveRejectsLowTarget
  intro s hr hf hpolicy htarget
  have unselected : dividerExponent s.config.lowFreqPolicy s.solveIn.targetFreq.mhz = none :=
    (dividerExponent_eq_none_iff _ _).mpr ⟨hpolicy, by linarith⟩
  exact exec_solve_of_error (solveOp_of_tooLow hr hf unselected)

/-- Settles O19: each row of the table lies between two neighbouring thresholds. -/
theorem outputDividerTable : Obligations.OutputDividerTable := by
  unfold Obligations.OutputDividerTable
  intro policy target
  split_ifs with h0 h1 h2 h3 h4 h5 h6 hcap
  · exact (dividerExponent_eq_some_iff policy target 0).mpr (.inl ⟨by decide, by linarith, nofun⟩)
  · exact dividerExponent_of_between policy (k := 0) (by decide) (by linarith) (by linarith)
  · exact dividerExponent_of_between policy (k := 1) (by decide) (by linarith) (by linarith)
  · exact dividerExponent_of_between policy (k := 2) (by decide) (by linarith) (by linarith)
  · exact dividerExponent_of_between policy (k := 3) (by decide) (by linarith) (by linarith)
  · exact dividerExponent_of_between policy (k := 4) (by decide) (by linarith) (by linarith)
  · exact dividerExponent_of_between policy (k := 5) (by decide) (by linarith) (by linarith)
  · exact (dividerExponent_eq_some_iff policy target 6).mpr (.inr ⟨hcap, rfl, by linarith⟩)
  · have herror : policy = .error := by
      cases policy with
      | error => rfl
      | cap64 => exact absurd rfl hcap
    exact (dividerExponent_eq_none_iff policy target).mpr ⟨herror, by linarith⟩

/-- Settles O20: rounding is unique, so the MOD of step 4 is the 0 given. -/
theorem solveRejectsZeroMod : Obligations.SolveRejectsZeroMod := by
  unfold Obligations.SolveRejectsZeroMod
  intro s pfd k starts rounds
  have zero : roundNat s.config.roundMode (1000 * pfd) = 0 :=
    (roundNat_eq_iff _ _ _ (by linarith [starts.pfd_pos])).mpr rounds
  apply exec_solve_of_error
  rw [solveOp_of_starts starts, solveFrom_of_zero_mod zero]

/-- Settles O21: the three tests of step 6, each reached with the ones before it passed. -/
theorem solveRejectsPfdAboveItsCeilings : Obligations.SolveRejectsPfdAboveItsCeilings := by
  unfold Obligations.SolveRejectsPfdAboveItsCeilings
  intro s pfd k int mod frac reaches above
  refine ⟨fun hfrac => ?fraction,
    fun hfrac hext => ⟨fun h90 => ?above90, fun h90 hmode => ?lowRange⟩⟩
  all_goals apply exec_solve_of_pfdCeiling reaches
  case fraction => simp [pfdCeiling, above, hfrac]
  case above90 => simp [pfdCeiling, above, hfrac, hext, h90]
  case lowRange => simp [pfdCeiling, above, hfrac, hext, hmode, not_lt.mpr h90]

/-- Settles O22: step 7 has no divider to take. -/
theorem solveNeedsDividerInHighRange : Obligations.SolveNeedsDividerInHighRange := by
  unfold Obligations.SolveNeedsDividerInHighRange
  intro s pfd k int mod frac reaches allowed hin hmode
  apply exec_solve_of_bandSelectDivider reaches allowed
  simp [bandSelectDivider, hin, hmode]

/-- Settles O23: the tests of step 8, each reached with the ones before it passed. -/
theorem solveRejectsBandSelectClock : Obligations.SolveRejectsBandSelectClock := by
  unfold Obligations.SolveRejectsBandSelectClock
  rintro s pfd k int mod frac d f reaches allowed takes rfl
  refine ⟨fun h500 => ?above500, fun h125 h500 hext hmode => ?lowMode, fun h125 h500 hbase => ?base⟩
  all_goals apply exec_solve_of_bandSelectCeiling reaches allowed takes
  case above500 => simp [bandSelectCeiling, bandSelectFreq, h500]
  case lowMode => simp [bandSelectCeiling, bandSelectFreq, not_lt.mpr h500, h125, hext, hmode]
  case base => simp [bandSelectCeiling, bandSelectFreq, not_lt.mpr h500, h125, hbase]

/-- Settles O17: the guard before step 1. -/
theorem solveRejectsUndefinedPfd : Obligations.SolveRejectsUndefinedPfd := by
  unfold Obligations.SolveRejectsUndefinedPfd
  intro s h
  exact exec_solve_of_error (solveOp_of_undefined s.config h)

end Sys2Proof.Machine
end

section
/-! PROOFS. What every solution promises: its bounds, the frequency limits it keeps, and the ports it fits
(40_divider_solver.md R78, R81, R83, R84). -/

namespace Sys2Proof.Machine

open Sys2Proof

/-! ## The fraction, 40_divider_solver.md R77, R78 -/

theorem RoundsTo.le_add_half {mode : RoundMode} {x : Rat} {n : Nat} (h : RoundsTo mode x n) :
    (n : Rat) ≤ x + 1 / 2 := by
  obtain ⟨-, hlt⟩ | ⟨heq, -⟩ | ⟨heq, -⟩ := h
  · exact hlt.le
  · exact heq.le
  · linarith

/-- Rounding does not pass a natural above. -/
theorem RoundsTo.le_of_lt {mode : RoundMode} {x : Rat} {n m : Nat} (h : RoundsTo mode x n)
    (hx : x < m) : n ≤ m := by
  by_contra hgt
  have hnext : ((m + 1 : Nat) : Rat) ≤ n := Nat.cast_le.mpr (not_le.mp hgt)
  push_cast at hnext
  linarith [h.le_add_half]

/-- The fractional part of N is below 1 (40_divider_solver.md R77). -/
theorem SolveReaches.frac_le_mod {s : State} {pfd : Rat} {k int mod frac : Nat}
    (h : SolveReaches s pfd k int mod frac) : frac ≤ mod := by
  obtain ⟨n, -, -, hlt, rounds⟩ := h.intFloor
  have modPos : (0 : Rat) < mod := Nat.cast_pos.mpr (Nat.pos_of_ne_zero h.modPositive)
  have below : (n - int) * mod < mod := mul_lt_of_lt_one_left modPos (by linarith)
  exact rounds.le_of_lt below

theorem two_le_reduceFraction_fst {mod : Nat} (h : mod ≠ 0) (gcdEnable : Bool) (frac : Nat) :
    2 ≤ (reduceFraction gcdEnable mod frac).1 := by
  have positive : 0 < mod / fractionDivisor gcdEnable mod frac :=
    Nat.div_pos (Nat.le_of_dvd (Nat.pos_of_ne_zero h) (fractionDivisor_dvd gcdEnable mod frac).1)
      (fractionDivisor_pos h gcdEnable frac)
  rw [reduceFraction_fst]
  split_ifs <;> omega

theorem reduceFraction_fst_le (gcdEnable : Bool) (mod frac : Nat) :
    (reduceFraction gcdEnable mod frac).1 ≤ max 2 mod := by
  have quotient : mod / fractionDivisor gcdEnable mod frac ≤ mod := Nat.div_le_self _ _
  rw [reduceFraction_fst]
  split_ifs <;> omega

theorem reduceFraction_snd_le_fst {mod frac : Nat} (h : frac ≤ mod) (gcdEnable : Bool) :
    (reduceFraction gcdEnable mod frac).2 ≤ (reduceFraction gcdEnable mod frac).1 := by
  have quotients :
      frac / fractionDivisor gcdEnable mod frac ≤ mod / fractionDivisor gcdEnable mod frac :=
    Nat.div_le_div_right h
  rw [reduceFraction_fst, reduceFraction_snd]
  split_ifs <;> omega

/-- The quotients by the greatest common divisor are coprime; where the coercion acts, FRAC is 0 or 1. -/
theorem reduceFraction_coprime {mod frac : Nat} (hmod : mod ≠ 0) (hle : frac ≤ mod) :
    Nat.gcd (reduceFraction true mod frac).1 (reduceFraction true mod frac).2 = 1
      ∨ ((reduceFraction true mod frac).1 = 2 ∧ (reduceFraction true mod frac).2 = 0) := by
  have coprime : Nat.gcd (mod / Nat.gcd mod frac) (frac / Nat.gcd mod frac) = 1 :=
    Nat.coprime_div_gcd_div_gcd (Nat.gcd_pos_of_pos_left frac (Nat.pos_of_ne_zero hmod))
  have quotients : frac / Nat.gcd mod frac ≤ mod / Nat.gcd mod frac := Nat.div_le_div_right hle
  simp only [reduceFraction_fst, reduceFraction_snd, fractionDivisor, if_true]
  by_cases coerced : mod / Nat.gcd mod frac = 1
  · rw [if_pos coerced]
    obtain h0 | h1 := Nat.le_one_iff_eq_zero_or_eq_one.mp (coerced ▸ quotients)
    · exact .inr ⟨rfl, h0⟩
    · exact .inl (by rw [h1, Nat.gcd_one_right])
  · rw [if_neg coerced]
    exact .inl coprime

/-- The reduction divides MOD and FRAC by one number, so their ratio changes only by the coercion. -/
theorem reduceFraction_ratio {gcdEnable : Bool} {mod frac : Nat} (hmod : mod ≠ 0)
    (h : mod / fractionDivisor gcdEnable mod frac = 1 → frac = 0) :
    ((reduceFraction gcdEnable mod frac).2 : Rat) / (reduceFraction gcdEnable mod frac).1
      = (frac : Rat) / mod := by
  obtain ⟨dvdMod, dvdFrac⟩ := fractionDivisor_dvd gcdEnable mod frac
  have divisor : (fractionDivisor gcdEnable mod frac : Rat) ≠ 0 :=
    Nat.cast_ne_zero.mpr (fractionDivisor_pos hmod gcdEnable frac).ne'
  rw [reduceFraction_fst, reduceFraction_snd]
  by_cases coerced : mod / fractionDivisor gcdEnable mod frac = 1
  · simp [h coerced]
  · rw [if_neg coerced, Nat.cast_div dvdFrac divisor, Nat.cast_div dvdMod divisor,
      div_div_div_cancel_right₀ divisor]

/-- The coercion acts on a MOD of at least 2 only where the reduction finds that MOD divides FRAC. -/
theorem dvd_of_div_fractionDivisor_eq_one {gcdEnable : Bool} {mod frac : Nat} (hmod : 2 ≤ mod)
    (h : mod / fractionDivisor gcdEnable mod frac = 1) : gcdEnable = true ∧ mod ∣ frac := by
  obtain ⟨dvdMod, dvdFrac⟩ := fractionDivisor_dvd gcdEnable mod frac
  have whole : mod = fractionDivisor gcdEnable mod frac :=
    (Nat.eq_of_dvd_of_div_eq_one dvdMod h).symm
  cases gcdEnable with
  | false =>
    have one : mod = 1 := whole
    omega
  | true => exact ⟨rfl, whole ▸ dvdFrac⟩

/-! ## The dividers, 40_divider_solver.md R73, R80, R81 -/

theorem two_pow_mem_outputDividers {k : Nat} (h : k ≤ 6) : 2 ^ k ∈ outputDividers := by
  interval_cases k <;> decide

theorem TakesDivider.derived {p : SolveInputs} {pfd : Rat} {d : BitVec 8} (h : TakesDivider p pfd d)
    (hin : p.bsClkDivIn = 0) : d.toNat = min ⌈8 * pfd⌉₊ 255 := by
  obtain ⟨supplied, -⟩ | ⟨-, -, hd⟩ := h
  · exact absurd hin supplied
  · exact hd

/-- Step 8 never divides by zero (40_divider_solver.md R80). -/
theorem TakesDivider.pos {p : SolveInputs} {pfd : Rat} {d : BitVec 8} (h : TakesDivider p pfd d)
    (hpfd : 0 < pfd) : 1 ≤ d.toNat := by
  obtain ⟨supplied, rfl⟩ | ⟨-, -, hd⟩ := h
  · exact BitVec.toNat_pos_of_ne_zero supplied
  · have ceil : 0 < ⌈8 * pfd⌉₊ := Nat.ceil_pos.mpr (by linarith)
    omega

theorem bandSelectFreq_le_iff {pfd c : Rat} {d : BitVec 8} (h : 1 ≤ d.toNat) :
    bandSelectFreq pfd d ≤ c ↔ 1000 * pfd ≤ c * d.toNat :=
  div_le_iff₀ (Nat.cast_pos.mpr h)

/-! ## What the conditions of a solution give, 40_divider_solver.md R83 -/

section
variable {s : State} {pfd : Rat} {k int mod frac : Nat} {d : BitVec 8}

theorem SolvePasses.pfd_pos (h : SolvePasses s pfd k int mod frac d) : 0 < pfd :=
  h.reaches.starts.pfd_pos

theorem SolvePasses.divider_pos (h : SolvePasses s pfd k int mod frac d) : 1 ≤ d.toNat :=
  h.takesDivider.pos h.pfd_pos

theorem SolvePasses.solutionOf_ok (h : SolvePasses s pfd k int mod frac d) (gcdEnable : Bool) :
    (solutionOf gcdEnable k int mod frac d).ok := by
  have exponent : k ≤ 6 := h.reaches.starts.divider.le_six
  have divider : (solutionOf gcdEnable k int mod frac d).outputDivider.toNat ∈ outputDividers := by
    rw [solutionOf, outputDivider_toNat exponent]
    exact two_pow_mem_outputDividers exponent
  exact ⟨two_le_reduceFraction_fst h.reaches.modPositive gcdEnable frac,
    reduceFraction_snd_le_fst h.reaches.frac_le_mod gcdEnable, divider, h.divider_pos⟩

/-- With a divider of at most 255, BASE's 125 kHz bound the PFD frequency (40_divider_solver.md R79 (b)). -/
theorem SolvePasses.pfd_le_of_base (h : SolvePasses s pfd k int mod frac d)
    (hbase : s.solveIn.variant = .base) : pfd ≤ 31875 / 1000 := by
  have clock : bandSelectFreq pfd d ≤ 125 := by
    by_contra above
    have hext := (h.clockMode (not_le.mp above)).1
    rw [hbase] at hext
    cases hext
  rw [bandSelectFreq_le_iff h.divider_pos] at clock
  have width : (d.toNat : Rat) ≤ 255 := by exact_mod_cast Nat.le_of_lt_succ d.isLt
  linarith

end

theorem exists_solvePasses {s t : State} {sol : DividerSolution} (h : exec .solve s = .next t)
    (hlast : t.last = .solved sol) :
    ∃ pfd k int mod frac d, SolvePasses s pfd k int mod frac d
      ∧ sol = solutionOf s.solveIn.gcdEnable k int mod frac d :=
  (solveOp_eq_ok_iff_passes s sol).mp (solveOp_of_exec_solve h hlast)

theorem solved_ok {s t : State} {sol : DividerSolution} (h : exec .solve s = .next t)
    (hlast : t.last = .solved sol) : sol.ok := by
  obtain ⟨pfd, k, int, mod, frac, d, passes, rfl⟩ := exists_solvePasses h hlast
  exact passes.solutionOf_ok _

/-! ## Sizes, 40_divider_solver.md R84 -/

theorem pfdOf_le (p : SolveInputs) (hr : p.rCounter ≠ 0) : pfdOf p ≤ 2 * p.refFreq.mhz := by
  have nonneg := p.refFreq.nonneg
  have counter : (1 : Rat) ≤ p.rCounter.toNat := by
    exact_mod_cast BitVec.toNat_pos_of_ne_zero hr
  have doubled : p.refFreq.mhz * (if p.refDoubler then 2 else 1) ≤ 2 * p.refFreq.mhz := by
    split_ifs <;> linarith
  have divisor : (1 : Rat) ≤ (if p.refDiv2 then 2 else 1) * p.rCounter.toNat := by
    split_ifs <;> linarith
  exact (div_le_self (by positivity) divisor).trans doubled

theorem le_pfdOf (p : SolveInputs) (hr : p.rCounter ≠ 0) : p.refFreq.mhz / 2046 ≤ pfdOf p := by
  have nonneg := p.refFreq.nonneg
  have counterPos : (1 : Rat) ≤ p.rCounter.toNat := by
    exact_mod_cast BitVec.toNat_pos_of_ne_zero hr
  have counter : (p.rCounter.toNat : Rat) ≤ 1023 := by
    exact_mod_cast Nat.le_of_lt_succ p.rCounter.isLt
  have doubled : p.refFreq.mhz ≤ p.refFreq.mhz * (if p.refDoubler then 2 else 1) := by
    split_ifs <;> linarith
  have divisor : (if p.refDiv2 then 2 else 1) * (p.rCounter.toNat : Rat) ≤ 2046 := by
    split_ifs <;> linarith
  have divisorPos : (0 : Rat) < (if p.refDiv2 then 2 else 1) * p.rCounter.toNat := by
    split_ifs <;> linarith
  exact div_le_div₀ (nonneg.trans doubled) doubled divisorPos divisor

theorem SolveReaches.int_mul_pfd_le {s : State} {pfd : Rat} {k int mod frac : Nat}
    (h : SolveReaches s pfd k int mod frac) : int * pfd ≤ 64 * s.solveIn.targetFreq.mhz := by
  obtain ⟨n, rfl, hle, -, -⟩ := h.intFloor
  rw [le_div_iff₀ h.starts.pfd_pos] at hle
  have divider : (2 : Rat) ^ k ≤ 2 ^ 6 := pow_le_pow_right₀ one_le_two h.starts.divider.le_six
  have factor : (if s.solveIn.feedbackSelect = 1 then (2 : Rat) ^ k else 1) ≤ 64 := by
    split_ifs <;> linarith
  linarith [mul_le_mul_of_nonneg_left factor s.solveIn.targetFreq.nonneg]

theorem freqOfRaw_lt {c : Config} (hwidth : c.freqWidth = 40) (hunit : c.freqUnit.mhz = 1 / 1000000)
    (raw : BitVec c.freqWidth) : (freqOfRaw c raw).mhz < 2 ^ 40 / 1000000 := by
  have bound : raw.toNat < 2 ^ 40 := raw.isLt.trans_eq (by rw [hwidth])
  have cast : (raw.toNat : Rat) < 2 ^ 40 := by exact_mod_cast bound
  rw [freqOfRaw_mhz, hunit]
  linarith

/-- The least positive raw frequency is one unit. -/
theorem unit_le_freqOfRaw {c : Config} {raw : BitVec c.freqWidth} (h : (freqOfRaw c raw).mhz ≠ 0) :
    c.freqUnit.mhz ≤ (freqOfRaw c raw).mhz := by
  rw [freqOfRaw_mhz] at h ⊢
  have positive : (1 : Rat) ≤ raw.toNat := by
    exact_mod_cast Nat.pos_of_ne_zero fun h0 => h (by rw [h0, Nat.cast_zero, zero_mul])
  exact le_mul_of_one_le_left c.freqUnit.nonneg positive

theorem solPort_of_lt {c : Config} {n : Nat} (h : n < 2 ^ c.solWidth) :
    solPort c n = some (BitVec.ofNat _ n) :=
  if_pos h

/-- Steps 1 to 4 on raw frequencies of 40 bits that count hertz: INT and MOD before the reduction. -/
theorem SolveReaches.sizes {s : State} {a b : BitVec s.config.freqWidth} {pfd : Rat}
    {k int mod frac : Nat} (h : SolveReaches (s.driveFreqs a b) pfd k int mod frac)
    (hwidth : s.config.freqWidth = 40) (hunit : s.config.freqUnit.mhz = 1 / 1000000) :
    int < 2 ^ 57 ∧ mod < 2 ^ 32 := by
  obtain ⟨hr, hf, hpfd, -⟩ := (solveStarts_iff _ _ _).mp h.starts
  have product := h.int_mul_pfd_le
  have pfdLow := le_pfdOf _ hr
  have pfdHigh := pfdOf_le _ hr
  rw [← hpfd] at pfdLow pfdHigh
  rw [State.driveFreqs_refFreq] at hf pfdLow pfdHigh
  rw [State.driveFreqs_targetFreq] at product
  have target := freqOfRaw_lt hwidth hunit a
  have refHigh := freqOfRaw_lt hwidth hunit b
  have refLow := unit_le_freqOfRaw hf
  rw [hunit] at refLow
  have least : (1 : Rat) / 1000000 / 2046 ≤ pfd := by linarith
  have intBound : (int : Rat) < 2 ^ 57 := by
    have := mul_le_mul_of_nonneg_left least (Nat.cast_nonneg (α := Rat) int)
    linarith
  have modBound : (mod : Rat) < 2 ^ 32 := by linarith [h.modRounds.le_add_half]
  exact ⟨by exact_mod_cast intBound, by exact_mod_cast modBound⟩

/-! ## The obligations -/

/-- Settles O25: what `DividerSolution.ok` says, the width of the divider, and the reduction. -/
theorem solutionBounds : Obligations.SolutionBounds := by
  unfold Obligations.SolutionBounds
  intro s t sol h hlast
  obtain ⟨two_le, le, divider, pos⟩ := solved_ok h hlast
  refine ⟨two_le, le, divider, pos, Nat.le_of_lt_succ sol.bsClkDiv.isLt, fun hgcd => ?_⟩
  obtain ⟨pfd, k, int, mod, frac, d, passes, rfl⟩ := exists_solvePasses h hlast
  rw [hgcd]
  exact reduceFraction_coprime passes.reaches.modPositive passes.reaches.frac_le_mod

/-- Settles O26: the ceilings of step 8 that a solution has passed. -/
theorem solutionFrequencyLimits : Obligations.SolutionFrequencyLimits := by
  unfold Obligations.SolutionFrequencyLimits
  intro s t sol pfd h hlast hpfd
  obtain ⟨pfd', k, int, mod, frac, d, passes, rfl⟩ := exists_solvePasses h hlast
  obtain rfl : pfd' = pfd := passes.reaches.starts.pfdValue.trans hpfd.symm
  exact ⟨passes.clockCeiling, passes.pfd_le_of_base⟩

/-- Settles O27: INT and MOD are small, the reduction does not enlarge MOD past 2, and FRAC is at most
MOD. -/
theorem solutionFitsItsPorts : Obligations.SolutionFitsItsPorts := by
  unfold Obligations.SolutionFitsItsPorts
  intro s t sol a b hwidth hunit hsol h hlast
  obtain ⟨-, fracLe, -, -⟩ := solved_ok h hlast
  obtain ⟨pfd, k, int, mod, frac, d, passes, rfl⟩ := exists_solvePasses h hlast
  obtain ⟨intLt, modLt⟩ := passes.reaches.sizes hwidth hunit
  have reducedLt := (reduceFraction_fst_le (s.driveFreqs a b).solveIn.gcdEnable mod frac).trans_lt
    (max_lt (by decide) modLt)
  have fracLt := fracLe.trans_lt reducedLt
  have fits {n : Nat} (hn : n < 2 ^ 57) : solPort s.config n = some (BitVec.ofNat _ n) :=
    solPort_of_lt (by rw [hsol]; omega)
  exact ⟨intLt, reducedLt, fracLe, fits intLt, fits (reducedLt.trans (by decide)),
    fits (fracLt.trans (by decide))⟩

/-- Settles O28: where the coercion acts, MOD divides FRAC, which is then 0. -/
theorem reductionKeepsTheRatio : Obligations.ReductionKeepsTheRatio := by
  unfold Obligations.ReductionKeepsTheRatio
  intro gcdEnable mod frac hmod hfrac
  have positive : mod ≠ 0 := by omega
  refine ⟨two_le_reduceFraction_fst positive gcdEnable frac,
    reduceFraction_ratio positive fun h => ?_⟩
  obtain ⟨enabled, divides⟩ := dvd_of_div_fractionDivisor_eq_one hmod h
  exact hfrac enabled divides

/-- Settles O29: the ceiling of `8 * pfd` is not below it, and 1000 is 8 times 125. -/
theorem derivedDividerKeeps125 : Obligations.DerivedDividerKeeps125 := by
  unfold Obligations.DerivedDividerKeeps125
  intro p pfd d hpos hle hin hd
  have takes : TakesDivider p pfd d := (bandSelectDivider_eq_ok_iff p pfd d).mp hd
  have unclamped : d.toNat = ⌈8 * pfd⌉₊ := by
    rw [takes.derived hin]
    exact min_eq_left (Nat.ceil_le.mpr hle)
  have ceil : 8 * pfd ≤ d.toNat := by
    rw [unclamped]
    exact Nat.le_ceil _
  have divider : 1 ≤ d.toNat := takes.pos hpos
  exact ⟨divider, (bandSelectFreq_le_iff divider).mpr (by linarith)⟩

end Sys2Proof.Machine
end

section
/-! PROOFS. The invariant of the machine: an operation leaves a result the spec promises, and a step sends
only words the decoder has read (40_divider_solver.md R83, 30_encoding.md R42 to R48, R60). -/

namespace Sys2Proof.Machine

open Sys2Proof

/-! ## The updates of a state -/

theorem State.Inv.withoutCall {s : State} (h : s.Inv) (rest : List Command) :
    State.Inv { s with calls := rest } :=
  ⟨h.result, h.sent⟩

theorem State.Inv.complete {s : State} (h : s.Inv) {r : OpResult} (hr : r.ok) :
    (s.complete r).Inv :=
  ⟨hr, h.sent⟩

theorem State.Inv.send {s : State} (h : s.Inv) {w : Word} (hw : producible w = true) :
    (s.send w).Inv := by
  refine ⟨h.result, fun v hv => ?_⟩
  rw [State.send_sink, List.mem_append, List.mem_singleton] at hv
  obtain held | rfl := hv
  · exact h.sent v held
  · exact hw

/-! ## The instructions -/

/-- Each operation leaves a result the spec promises: a solution with its bounds, words with their
formats, or an error. -/
theorem operation_result_ok {i : Instr} {s t : State} (hi : i = .solve ∨ i = .encode)
    (h : exec i s = .next t) : t.last.ok := by
  cases hlast : t.last with
  | none | failed => trivial
  | solved sol =>
    obtain rfl | rfl := hi
    · exact solved_ok h hlast
    · obtain ⟨W, -, rfl⟩ | ⟨e, -, rfl⟩ := (execEncode_eq_next_iff s t).mp h <;> cases hlast
  | encoded W =>
    obtain rfl | rfl := hi
    · obtain ⟨sol, -, rfl⟩ | ⟨e, -, rfl⟩ := (execSolve_eq_next_iff s t).mp h <;> cases hlast
    · exact encoded_ok h hlast

/-- A word that is read is handed on as it was, and it has a format. -/
theorem producible_of_decode {v : Variant} {c : Command} {i : Instr} {w : Word}
    (h : decode v c = .ok i) (hw : encode i = .word w) : producible w = true := by
  obtain rfl : .word w = c := hw.symm.trans (wf_and_encode_of_decode h).2
  exact (exists_decodeWord_eq_ok_iff v w).mp ⟨i, h⟩

theorem State.Inv.exec {s t : State} (h : s.Inv) {v : Variant} {c : Command} {i : Instr}
    (hdecode : decode v c = .ok i) (hexec : exec i s = .next t) : t.Inv := by
  obtain ⟨hi, r, rfl⟩ | ⟨-, w, hw, rfl⟩ := exec_eq_next_cases hexec
  · exact h.complete (operation_result_ok hi hexec)
  · exact h.send (producible_of_decode hdecode hw)

/-! ## The obligation -/

/-- Settles O12: the step keeps the state or runs a decoded instruction in the state without that call. -/
theorem everyStepKeepsTheInvariant : Obligations.EveryStepKeepsTheInvariant := by
  unfold Obligations.EveryStepKeepsTheInvariant
  intro s t h hstep
  obtain ⟨-, rfl⟩ | ⟨c, rest, i, -, hdecode, hexec⟩ := (step_eq_next_iff s t).mp hstep
  · exact h
  · exact (h.withoutCall rest).exec hdecode hexec

end Sys2Proof.Machine
end

section
/-! PROOFS. The packed words as sums of their fields: each field is OR-ed in below those that stand already,
so it adds to them (41_register_encoder.md R110 to R115). A format row hands such a word on (42_flow.md R143). -/

namespace Sys2Proof

/-! ## Fields OR-ed in from the highest down, 30_encoding.md R41 -/

/-- The word is the number `n`, and its bits below `lo` are free. -/
structure SumAbove (w : Word) (lo n : Nat) : Prop where
  toNat_eq : w.toNat = n
  free : 2 ^ lo ∣ w.toNat

theorem SumAbove.field {m : Nat} (v : BitVec m) (lo : Nat) (h : lo + m ≤ 32 := by decide) :
    SumAbove (place v lo) lo (v.toNat * 2 ^ lo) :=
  ⟨place_toNat v lo h, dvd_place v lo lo h le_rfl⟩

theorem SumAbove.flag (b : Bool) (lo : Nat) (h : lo + 1 ≤ 32 := by decide) :
    SumAbove (place (bit b) lo) lo (b.toNat * 2 ^ lo) :=
  bit_toNat b ▸ SumAbove.field (bit b) lo h

theorem SumAbove.or_field {w : Word} {hi n m : Nat} (hw : SumAbove w hi n) (v : BitVec m) (lo : Nat)
    (h : lo + m ≤ hi ∧ hi ≤ 32 := by decide) :
    SumAbove (w ||| place v lo) lo (n + v.toNat * 2 ^ lo) := by
  have fits : lo + m ≤ 32 := h.1.trans h.2
  have free (k : Nat) (hk : k ≤ hi) : 2 ^ k ∣ w.toNat := (pow_dvd_pow 2 hk).trans hw.free
  constructor
  · rw [or_place_toNat w v lo fits (free _ h.1), hw.toNat_eq]
  · exact (dvd_or_iff _ _ lo).mpr ⟨free lo (by omega), dvd_place v lo lo fits le_rfl⟩

theorem SumAbove.or_flag {w : Word} {hi n : Nat} (hw : SumAbove w hi n) (b : Bool) (lo : Nat)
    (h : lo + 1 ≤ hi ∧ hi ≤ 32 := by decide) :
    SumAbove (w ||| place (bit b) lo) lo (n + b.toNat * 2 ^ lo) :=
  bit_toNat b ▸ hw.or_field (bit b) lo h

/-- The address tag stands below every field (30_encoding.md R42). -/
theorem SumAbove.or_tag {w : Word} {hi n : Nat} (hw : SumAbove w hi n) (tag : Nat)
    (h : 3 ≤ hi ∧ tag < 2 ^ 3 := by decide) : (w ||| BitVec.ofNat 32 tag).toNat = n + tag := by
  have value : (BitVec.ofNat 32 tag).toNat = tag := by
    rw [BitVec.toNat_ofNat]
    omega
  have free : 2 ^ 3 ∣ w.toNat := (pow_dvd_pow 2 h.1).trans hw.free
  rw [or_toNat_of_dvd w _ 3 free (value.symm ▸ h.2), hw.toNat_eq, value]

/-! ## The packed words as sums -/

theorem packW0_toNat (f : W0Fields) :
    (packW0 f).toNat = f.int.toNat * 2 ^ 15 + f.frac.toNat * 2 ^ 3 := by
  have sum := SumAbove.field f.int 15
    |>.or_field f.frac 3
    |>.or_tag 0
  rwa [Nat.add_zero] at sum

theorem packW1_toNat (f : W1Fields) :
    (packW1 f).toNat = f.phaseAdjust.toNat * 2 ^ 28 + f.prescaler.toNat * 2 ^ 27
      + f.phase.toNat * 2 ^ 15 + f.mod.toNat * 2 ^ 3 + 1 := by
  have sum := SumAbove.flag f.phaseAdjust 28
    |>.or_field f.prescaler 27
    |>.or_field f.phase 15
    |>.or_field f.mod 3
    |>.or_tag 1
  exact sum

theorem packW2_toNat (f : W2Fields) :
    (packW2 f).toNat = f.lowNoiseSpur.toNat * 2 ^ 29 + f.muxOut.toNat * 2 ^ 26
      + f.refDoubler.toNat * 2 ^ 25 + f.refDiv2.toNat * 2 ^ 24 + f.rCounter.toNat * 2 ^ 14
      + f.doubleBufferR4.toNat * 2 ^ 13 + f.cpCurrentCode.toNat * 2 ^ 9
      + f.fracModeActive.toNat * 2 ^ 8 + f.abpNot10ns.toNat * 2 ^ 7
      + f.pdPolarity.toNat * 2 ^ 6 + f.powerDown.toNat * 2 ^ 5 + f.cpThreeState.toNat * 2 ^ 4
      + f.counterReset.toNat * 2 ^ 3 + 2 := by
  have sum := SumAbove.field f.lowNoiseSpur 29
    |>.or_field f.muxOut 26
    |>.or_flag f.refDoubler 25
    |>.or_flag f.refDiv2 24
    |>.or_field f.rCounter 14
    |>.or_flag f.doubleBufferR4 13
    |>.or_field f.cpCurrentCode 9
    |>.or_flag f.fracModeActive 8
    |>.or_flag f.abpNot10ns 7
    |>.or_field f.pdPolarity 6
    |>.or_flag f.powerDown 5
    |>.or_flag f.cpThreeState 4
    |>.or_flag f.counterReset 3
    |>.or_tag 2
  exact sum

theorem packW3Base_toNat (f : W3BaseFields) :
    (packW3Base f).toNat = f.resyncEnable.toNat * 2 ^ 18 + f.clkDivMode.toNat * 2 ^ 15
      + f.clkDivValue.toNat * 2 ^ 3 + 3 := by
  have sum := SumAbove.flag f.resyncEnable 18
    |>.or_field f.clkDivMode 15
    |>.or_field f.clkDivValue 3
    |>.or_tag 3
  exact sum

/-- EXT's three bits stand above the word of both variants, whose highest field ends at bit 18. -/
theorem packW3Ext_toNat (f : W3ExtFields) :
    (packW3Ext f).toNat = f.bsClkMode.toNat * 2 ^ 23 + f.abpCode.toNat * 2 ^ 22
      + f.chargeCancel.toNat * 2 ^ 21 + f.resyncEnable.toNat * 2 ^ 18
      + f.clkDivMode.toNat * 2 ^ 15 + f.clkDivValue.toNat * 2 ^ 3 + 3 := by
  have above := SumAbove.field f.bsClkMode 23
    |>.or_field f.abpCode 22
    |>.or_flag f.chargeCancel 21
  have common := packW3Base_toNat ⟨f.resyncEnable, f.clkDivMode, f.clkDivValue⟩
  have below : (packW3Base ⟨f.resyncEnable, f.clkDivMode, f.clkDivValue⟩).toNat < 2 ^ 21 := by
    have resync := f.resyncEnable.toNat_le
    have mode := f.clkDivMode.isLt
    have value := f.clkDivValue.isLt
    simp only at common
    omega
  rw [packW3Ext, BitVec.or_assoc, BitVec.or_assoc, BitVec.or_comm, ← BitVec.or_assoc,
    or_toNat_of_dvd _ _ 21 above.free below, above.toNat_eq, common]
  ring

theorem packW4_toNat (f : W4Fields) :
    (packW4 f).toNat = f.feedbackSelect.toNat * 2 ^ 23 + f.dividerSelect.toNat * 2 ^ 20
      + f.bsClkDiv.toNat * 2 ^ 12 + f.vcoPowerDown.toNat * 2 ^ 11
      + f.muteTillLockDetect.toNat * 2 ^ 10 + f.auxOutputSelect.toNat * 2 ^ 9
      + f.auxOutputEnable.toNat * 2 ^ 8 + f.auxOutputPowerCode.toNat * 2 ^ 6
      + f.outputEnable.toNat * 2 ^ 5 + f.outputPowerCode.toNat * 2 ^ 3 + 4 := by
  have sum := SumAbove.field f.feedbackSelect 23
    |>.or_field f.dividerSelect 20
    |>.or_field f.bsClkDiv 12
    |>.or_flag f.vcoPowerDown 11
    |>.or_flag f.muteTillLockDetect 10
    |>.or_field f.auxOutputSelect 9
    |>.or_flag f.auxOutputEnable 8
    |>.or_field f.auxOutputPowerCode 6
    |>.or_flag f.outputEnable 5
    |>.or_field f.outputPowerCode 3
    |>.or_tag 4
  exact sum

theorem packW5_toNat (f : W5Fields) :
    (packW5 f).toNat = f.ldPinMode.toNat * 2 ^ 22 + 3 * 2 ^ 19 + 5 := by
  have sum := SumAbove.field f.ldPinMode 22
    |>.or_field (3 : BitVec 2) 19
    |>.or_tag 5
  exact sum

end Sys2Proof

namespace Sys2Proof.Machine

open Sys2Proof

/-! ## The obligations -/

/-- Settles O45: the word that presents the row is sent, and it is the sum of its fields. -/
theorem wordZeroIsHandedOn : Obligations.WordZeroIsHandedOn := by
  unfold Obligations.WordZeroIsHandedOn
  exact fun f s => ⟨packW0 f, exec_of_encode_eq_word rfl s, packW0_toNat f⟩

/-- Settles O46: as for word 0. -/
theorem wordOneIsHandedOn : Obligations.WordOneIsHandedOn := by
  unfold Obligations.WordOneIsHandedOn
  exact fun f s => ⟨packW1 f, exec_of_encode_eq_word rfl s, packW1_toNat f⟩

/-- Settles O47: as for word 0. -/
theorem wordTwoIsHandedOn : Obligations.WordTwoIsHandedOn := by
  unfold Obligations.WordTwoIsHandedOn
  exact fun f s => ⟨packW2 f, exec_of_encode_eq_word rfl s, packW2_toNat f⟩

/-- Settles O48: as for word 0, for the word 3 of either variant. -/
theorem wordThreeIsHandedOn : Obligations.WordThreeIsHandedOn := by
  unfold Obligations.WordThreeIsHandedOn
  exact ⟨fun f s => ⟨packW3Ext f, exec_of_encode_eq_word rfl s, packW3Ext_toNat f⟩,
    fun f s => ⟨packW3Base f, exec_of_encode_eq_word rfl s, packW3Base_toNat f⟩⟩

/-- Settles O49: as for word 0. -/
theorem wordFourIsHandedOn : Obligations.WordFourIsHandedOn := by
  unfold Obligations.WordFourIsHandedOn
  exact fun f s => ⟨packW4 f, exec_of_encode_eq_word rfl s, packW4_toNat f⟩

/-- Settles O50: as for word 0. -/
theorem wordFiveIsHandedOn : Obligations.WordFiveIsHandedOn := by
  unfold Obligations.WordFiveIsHandedOn
  exact fun f s => ⟨packW5 f, exec_of_encode_eq_word rfl s, packW5_toNat f⟩

end Sys2Proof.Machine
end

section
/-! PROOFS. ENCODE's checks: the error it ends with is that of the first check that fails, and it ends with the
error exactly where the checks before it pass (41_register_encoder.md R100 to R108). -/

namespace Sys2Proof.Machine

open Sys2Proof

/-! ## One check -/

theorem rangeCheck_eq_some_iff (p : EncodeInputs) (e : FieldError) :
    rangeCheck p = some e ↔
      (65535 < p.int ∧ e = ⟨.int, .upTo 65535⟩)
        ∨ (p.int ≤ 65535 ∧ 4095 < p.frac ∧ e = ⟨.frac, .upTo 4095⟩)
        ∨ (p.int ≤ 65535 ∧ p.frac ≤ 4095 ∧ 4095 < p.mod ∧ e = ⟨.mod, .upTo 4095⟩) := by
  unfold rangeCheck
  by_cases hint : 65535 < p.int
  · simp [hint, eq_comm]
  by_cases hfrac : 4095 < p.frac
  · simp [hint, hfrac, Nat.not_lt.mp hint, eq_comm]
  · simp [hint, hfrac, Nat.not_lt.mp hint, Nat.not_lt.mp hfrac, eq_comm]

theorem mem_tableKeys_of_lookup {n : Nat} {t : Table n} {v : Rat} {c : BitVec n}
    (h : lookup t v = some c) : v ∈ tableKeys t :=
  List.mem_map_of_mem (mem_of_lookup t v c h)

theorem outputDividers_eq_map : outputDividers = dividerExponents.map (2 ^ ·) := rfl

theorem log2Exact_eq_none_iff (d : Nat) : log2Exact d = none ↔ d ∉ outputDividers := by
  simp [log2Exact, outputDividers_eq_map]

theorem mem_outputDividers_of_log2Exact {d k : Nat} (h : log2Exact d = some k) :
    d ∈ outputDividers := by
  obtain ⟨hk, rfl⟩ := (log2Exact_eq_some_iff d k).mp h
  exact two_pow_mem_outputDividers hk

/-! ## The checks in their order -/

/-- The membership checks end with the error of the first value that is no member. -/
theorem lookupCodes_eq_error_iff (c : Config) (p : EncodeInputs) (e : FieldError) :
    lookupCodes c p = .error e ↔
      (p.chargePumpCurrent ∉ tableKeys c.cpCurrentTable
          ∧ e = ⟨.chargePumpCurrent, .keys (tableKeys c.cpCurrentTable)⟩)
        ∨ p.chargePumpCurrent ∈ tableKeys c.cpCurrentTable ∧
      ((p.antibacklashPulseWidth ∉ tableKeys c.abpTable
          ∧ e = ⟨.antibacklashPulseWidth, .keys (tableKeys c.abpTable)⟩)
        ∨ p.antibacklashPulseWidth ∈ tableKeys c.abpTable ∧
      ((p.auxOutputPower ∉ tableKeys c.outPowerTable
          ∧ e = ⟨.auxOutputPower, .keys (tableKeys c.outPowerTable)⟩)
        ∨ p.auxOutputPower ∈ tableKeys c.outPowerTable ∧
      ((p.outputPower ∉ tableKeys c.outPowerTable
          ∧ e = ⟨.outputPower, .keys (tableKeys c.outPowerTable)⟩)
        ∨ p.outputPower ∈ tableKeys c.outPowerTable ∧
      (p.outputDivider.toNat ∉ outputDividers
          ∧ e = ⟨.outputDivider, .members outputDividers⟩)))) := by
  unfold lookupCodes
  cases hcp : lookup c.cpCurrentTable p.chargePumpCurrent with
  | none => simp [(lookup_eq_none_iff _ _).mp hcp, eq_comm]
  | some cp =>
  simp only [mem_tableKeys_of_lookup hcp, not_true, false_and, true_and, false_or]
  cases habp : lookup c.abpTable p.antibacklashPulseWidth with
  | none => simp [(lookup_eq_none_iff _ _).mp habp, eq_comm]
  | some abp =>
  simp only [mem_tableKeys_of_lookup habp, not_true, false_and, true_and, false_or]
  cases haux : lookup c.outPowerTable p.auxOutputPower with
  | none => simp [(lookup_eq_none_iff _ _).mp haux, eq_comm]
  | some aux =>
  simp only [mem_tableKeys_of_lookup haux, not_true, false_and, true_and, false_or]
  cases hout : lookup c.outPowerTable p.outputPower with
  | none => simp [(lookup_eq_none_iff _ _).mp hout, eq_comm]
  | some out =>
  simp only [mem_tableKeys_of_lookup hout, not_true, false_and, true_and, false_or]
  cases hdiv : log2Exact p.outputDivider.toNat with
  | none => simp [(log2Exact_eq_none_iff _).mp hdiv, eq_comm]
  | some k => simp [mem_outputDividers_of_log2Exact hdiv]

/-! ## How ENCODE ends -/

theorem encodeOp_eq_error_iff (c : Config) (p : EncodeInputs) (e : FieldError) :
    encodeOp c p = .error e ↔
      rangeCheck p = some e ∨ rangeCheck p = none ∧ lookupCodes c p = .error e := by
  unfold encodeOp
  cases rangeCheck p with
  | some e' => simp
  | none => cases lookupCodes c p <;> simp

theorem exec_encode_eq_iff (s : State) (r : OpResult) :
    exec .encode s = .next { s with last := r } ↔ encodeResult s.config s.encodeIn = r := by
  rw [exec_encode_eq]
  constructor
  · intro h
    exact congrArg State.last (Host.Outcome.next.inj h)
  · rintro rfl
    rfl

theorem exec_encode_encoded_iff (s : State) (W : RegisterWords) :
    exec .encode s = .next { s with last := .encoded W } ↔
      rangeCheck s.encodeIn = none
        ∧ ∃ codes, lookupCodes s.config s.encodeIn = .ok codes ∧ W = packWords s.encodeIn codes := by
  rw [exec_encode_eq_iff, ← encodeOp_eq_ok_iff, encodeResult]
  cases encodeOp s.config s.encodeIn <;> simp

/-- ENCODE fails in its own kind only, with the error of its first check that fails. -/
theorem exec_encode_failed_iff (s : State) (e : OpError) :
    exec .encode s = .next { s with last := .failed e } ↔
      ∃ f, e = .invalidField f ∧ (rangeCheck s.encodeIn = some f
        ∨ rangeCheck s.encodeIn = none ∧ lookupCodes s.config s.encodeIn = .error f) := by
  simp only [exec_encode_eq_iff, ← encodeOp_eq_error_iff, encodeResult]
  cases encodeOp s.config s.encodeIn <;> simp [eq_comm]

theorem exec_encode_invalidField_iff (s : State) (f : FieldError) :
    exec .encode s = .next { s with last := .failed (.invalidField f) } ↔
      rangeCheck s.encodeIn = some f
        ∨ rangeCheck s.encodeIn = none ∧ lookupCodes s.config s.encodeIn = .error f := by
  simp [exec_encode_failed_iff]

/-! ## The obligations -/

/-- Settles O32: the range checks come first, and the membership checks name none of their three fields. -/
theorem encodeChecksRanges : Obligations.EncodeChecksRanges := by
  unfold Obligations.EncodeChecksRanges
  intro s
  have otherFields (domain : Domain) :
      lookupCodes s.config s.encodeIn ≠ .error ⟨.int, domain⟩
        ∧ lookupCodes s.config s.encodeIn ≠ .error ⟨.frac, domain⟩
        ∧ lookupCodes s.config s.encodeIn ≠ .error ⟨.mod, domain⟩ := by
    simp [lookupCodes_eq_error_iff]
  simp [exec_encode_invalidField_iff, otherFields, rangeCheck_eq_some_iff]

/-- Settles O33: past the range checks the membership checks decide, each naming a field of its own. -/
theorem encodeChecksTableKeys : Obligations.EncodeChecksTableKeys := by
  unfold Obligations.EncodeChecksTableKeys
  intro s hint hfrac hmod
  have passed := (rangeCheck_eq_none_iff s.encodeIn).mpr ⟨hint, hfrac, hmod⟩
  simp [exec_encode_invalidField_iff, passed, lookupCodes_eq_error_iff, tableKeys]

/-- Settles O34: past the range checks and with all four keys in their tables the last check decides. -/
theorem encodeChecksOutputDivider : Obligations.EncodeChecksOutputDivider := by
  unfold Obligations.EncodeChecksOutputDivider
  intro s hint hfrac hmod hcp habp haux hout
  have passed := (rangeCheck_eq_none_iff s.encodeIn).mpr ⟨hint, hfrac, hmod⟩
  rw [exec_encode_invalidField_iff, passed, lookupCodes_eq_error_iff]
  simp [tableKeys, hcp, habp, haux, hout, outputDividers]

end Sys2Proof.Machine
end

section
/-! PROOFS. The words of a successful ENCODE as sums of its operands, and what the variant changes in them
(41_register_encoder.md R110 to R117, 30_encoding.md R51 to R57). -/

namespace Sys2Proof

/-! ## Words under a mask -/

/-- A field without a bit under a mask is masked out. -/
theorem place_and_eq_zero {n : Nat} (v : BitVec n) {lo : Nat} {M : Word}
    (h : place (BitVec.allOnes n) lo &&& M = 0) : place v lo &&& M = 0 := by
  have inField : place v lo = place v lo &&& place (BitVec.allOnes n) lo := by
    refine BitVec.eq_of_getLsbD_eq fun i hi => ?_
    rw [BitVec.getLsbD_and, getLsbD_place, getLsbD_place, BitVec.getLsbD_allOnes]
    cases inside : v.getLsbD (i - lo) with
    | false => simp
    | true => simp [BitVec.lt_of_getLsbD inside]
  rw [inField, BitVec.and_assoc, h]
  exact BitVec.and_zero

end Sys2Proof

namespace Sys2Proof.Machine

open Sys2Proof

/-! ## The operands as numbers, 30_encoding.md R51 to R57 -/

theorem fracModeFlag_toNat (frac : Nat) :
    (fracModeFlag frac).toNat = if frac = 0 then 0 else 1 := by
  by_cases h : frac = 0 <;> simp [fracModeFlag, h]

theorem abpFlag_toNat (width : Rat) : (abpFlag width).toNat = if width = 10 then 0 else 1 := by
  by_cases h : width = 10 <;> simp [abpFlag, h]

theorem wordThree_toNat (p : EncodeInputs) (codes : Codes) :
    (wordThree p codes).toNat =
      (if p.variant = .ext then p.bsClkMode.toNat * 2 ^ 23 + codes.abp.toNat * 2 ^ 22
          + p.chargeCancel.toNat * 2 ^ 21 else 0)
        + p.resyncEnable.toNat * 2 ^ 18 + p.clkDivMode.toNat * 2 ^ 15
        + p.clkDivValue.toNat * 2 ^ 3 + 3 := by
  unfold wordThree
  cases p.variant with
  | ext => exact packW3Ext_toNat (fieldsW3Ext p codes)
  | base =>
    have common := packW3Base_toNat (fieldsW3Base p)
    rwa [if_neg (by decide), Nat.zero_add]

theorem packWords_w0_toNat {p : EncodeInputs} (codes : Codes) (hint : p.int ≤ 65535)
    (hfrac : p.frac ≤ 4095) :
    (packWords p codes).w0.toNat = p.int * 2 ^ 15 + p.frac * 2 ^ 3 := by
  have sum := packW0_toNat (fieldsW0 p)
  rwa [fieldsW0, BitVec.toNat_ofNat, BitVec.toNat_ofNat, Nat.mod_eq_of_lt (by omega),
    Nat.mod_eq_of_lt (by omega)] at sum

theorem packWords_w1_toNat {p : EncodeInputs} (codes : Codes) (hmod : p.mod ≤ 4095) :
    (packWords p codes).w1.toNat = p.phaseAdjust.toNat * 2 ^ 28 + p.prescaler.toNat * 2 ^ 27
      + (if p.phaseValid then p.phaseValue.toNat else 1) * 2 ^ 15 + p.mod * 2 ^ 3 + 1 := by
  have sum := packW1_toNat (fieldsW1 p)
  rwa [fieldsW1, phaseOperand_toNat, BitVec.toNat_ofNat, Nat.mod_eq_of_lt (by omega)] at sum

theorem packWords_w2_toNat (p : EncodeInputs) (codes : Codes) :
    (packWords p codes).w2.toNat = p.lowNoiseSpur.toNat * 2 ^ 29 + p.muxOut.toNat * 2 ^ 26
      + p.refDoubler.toNat * 2 ^ 25 + p.refDiv2.toNat * 2 ^ 24 + p.rCounter.toNat * 2 ^ 14
      + p.doubleBufferR4.toNat * 2 ^ 13 + codes.cpCurrent.toNat * 2 ^ 9
      + (if p.frac = 0 then 0 else 1) * 2 ^ 8
      + (if p.antibacklashPulseWidth = 10 then 0 else 1) * 2 ^ 7
      + p.pdPolarity.toNat * 2 ^ 6 + p.powerDown.toNat * 2 ^ 5 + p.cpThreeState.toNat * 2 ^ 4
      + p.counterReset.toNat * 2 ^ 3 + 2 := by
  have sum := packW2_toNat (fieldsW2 p codes)
  rwa [fieldsW2, fracModeFlag_toNat, abpFlag_toNat] at sum

/-! ## The three bits only EXT packs, 41_register_encoder.md R113 -/

theorem packW3Base_and_extBits (f : W3BaseFields) : packW3Base f &&& 0x00E00000 = 0 :=
  calc packW3Base f &&& 0x00E00000
      = packW3Base f &&& formatMask .base 3 &&& 0x00E00000 := by
        rw [BitVec.and_assoc]
        rfl
    _ = 0 := by
        rw [packW3Base_fixed]
        rfl

theorem packW3Ext_outside_extBits (f : W3ExtFields) :
    packW3Ext f &&& 0xFF1FFFFF
      = packW3Base ⟨f.resyncEnable, f.clkDivMode, f.clkDivValue⟩ &&& 0xFF1FFFFF := by
  have mode : place f.bsClkMode 23 &&& 0xFF1FFFFF = 0 := place_and_eq_zero _ rfl
  have code : place f.abpCode 22 &&& 0xFF1FFFFF = 0 := place_and_eq_zero _ rfl
  have cancel : place (bit f.chargeCancel) 21 &&& 0xFF1FFFFF = 0 := place_and_eq_zero _ rfl
  simp only [packW3Ext, BitVec.and_or_distrib_right, mode, code, cancel]
  simp only [BitVec.ofNat_eq_ofNat, BitVec.or_zero]

/-- Outside EXT's three bits a word 3 does not depend on the variant. -/
theorem wordThree_outside_extBits (p : EncodeInputs) (codes : Codes) :
    wordThree p codes &&& 0xFF1FFFFF = packW3Base (fieldsW3Base p) &&& 0xFF1FFFFF := by
  unfold wordThree
  cases p.variant with
  | ext => exact packW3Ext_outside_extBits (fieldsW3Ext p codes)
  | base => rfl

/-! ## The obligations -/

/-- Settles O31: the lookups give the codes of the four keys and the exponent of the divider, and each
packed word is the sum of its fields. -/
theorem encodePacksTheSixWords : Obligations.EncodePacksTheSixWords := by
  unfold Obligations.EncodePacksTheSixWords
  intro s cp abp aux out k hcpWf habpWf hpowerWf hint hfrac hmod hcp habp haux hout hdiv hk p
  have passed : rangeCheck p = none := (rangeCheck_eq_none_iff p).mpr ⟨hint, hfrac, hmod⟩
  have looked : lookupCodes s.config p = .ok ⟨cp, abp, aux, out, BitVec.ofNat 3 k⟩ :=
    (lookupCodes_eq_ok_iff _ _ _).mpr ⟨lookup_of_mem _ _ _ hcpWf hcp, lookup_of_mem _ _ _ habpWf habp,
      lookup_of_mem _ _ _ hpowerWf haux, lookup_of_mem _ _ _ hpowerWf hout, k,
      (log2Exact_eq_some_iff _ k).mpr ⟨hk, hdiv⟩, rfl⟩
  have word4 := packW4_toNat (fieldsW4 p ⟨cp, abp, aux, out, BitVec.ofNat 3 k⟩)
  rw [fieldsW4, BitVec.toNat_ofNat, Nat.mod_eq_of_lt (by omega)] at word4
  exact ⟨_, (exec_encode_encoded_iff s _).mpr ⟨passed, _, looked, rfl⟩,
    packWords_w0_toNat _ hint hfrac, packWords_w1_toNat _ hmod, packWords_w2_toNat p _,
    wordThree_toNat p _, word4, packW5_toNat (fieldsW5 p)⟩

/-- Settles O41: no check reads the variant, and of the words only word 3 does. -/
theorem variantChangesOnlyWordThree : Obligations.VariantChangesOnlyWordThree := by
  unfold Obligations.VariantChangesOnlyWordThree
  intro s v s'
  have sameRange : rangeCheck s'.encodeIn = rangeCheck s.encodeIn := rfl
  have sameLookup : lookupCodes s'.config s'.encodeIn = lookupCodes s.config s.encodeIn := rfl
  constructor
  · intro e
    rw [exec_encode_failed_iff, exec_encode_failed_iff, sameRange, sameLookup]
    exact id
  · intro W h
    obtain ⟨passed, codes, looked, rfl⟩ := (exec_encode_encoded_iff s W).mp h
    refine ⟨wordThree s'.encodeIn codes, ?outside, ?base, ?words⟩
    case outside =>
      rw [wordThree_outside_extBits]
      exact (wordThree_outside_extBits s.encodeIn codes).symm
    case base =>
      rintro rfl
      exact packW3Base_and_extBits (fieldsW3Base s.encodeIn)
    case words => exact (exec_encode_encoded_iff s' _).mpr ⟨passed, codes, looked, rfl⟩

end Sys2Proof.Machine
end

section
/-! PROOFS. CONFIGURE (42_flow.md R140, R141): what SOLVE's outcome makes of it, everything it can do, and what
it leaves unchanged. -/

namespace Sys2Proof.Machine

open Sys2Proof

/-! ## ENCODE under the tie, 42_flow.md R140 -/

/-- The state in which CONFIGURE invokes ENCODE: its ports are tied to SOLVE's and to the solution. -/
def State.tied (s : State) (sol : DividerSolution) : State :=
  { s with encodeIn := tiedInputs s.solveIn sol s.encodeIn }

@[simp] theorem State.tied_encodeIn (s : State) (sol : DividerSolution) :
    (s.tied sol).encodeIn = tiedInputs s.solveIn sol s.encodeIn := rfl

/-- The tie widens the divider's port, so the divider keeps its value (10_state.md R18, R20). -/
theorem tiedInputs_outputDivider_toNat (p : SolveInputs) (sol : DividerSolution) (q : EncodeInputs) :
    (tiedInputs p sol q).outputDivider.toNat = sol.outputDivider.toNat :=
  BitVec.toNat_setWidth_of_le (by decide)

/-! ## What SOLVE's outcome makes of CONFIGURE -/

theorem configure_of_solved {s t : State} {sol : DividerSolution} (h : exec .solve s = .next t)
    (hlast : t.last = .solved sol) : configure s = exec .encode (t.tied sol) := by
  have solved : execSolve s = .next t := h
  have solution : t.solution = some sol := (t.solution_eq_some_iff sol).mpr hlast
  change configure s = execEncode (t.tied sol)
  simp only [configure, solved, solution, State.tied]

theorem configure_of_failed {s t : State} {e : OpError} (h : exec .solve s = .next t)
    (hlast : t.last = .failed e) : configure s = .next t := by
  have failed : execSolve s = .next t := h
  have noSolution : t.solution = none := by
    simp only [State.solution, hlast]
  simp only [configure, failed, noSolution]

/-- Everything CONFIGURE can do: ENCODE under the tie after a solution, or SOLVE's own error. -/
theorem configure_eq_next_cases {s t : State} (h : configure s = .next t) :
    (∃ u sol, exec .solve s = .next u ∧ u.last = .solved sol ∧ exec .encode (u.tied sol) = .next t)
      ∨ ∃ e, exec .solve s = .next t ∧ t.last = .failed (.invalidConfiguration e) := by
  have solve := exec_solve_eq s
  cases hop : solveOp s.config s.solveIn with
  | ok sol =>
    rw [solveResult, hop] at solve
    exact .inl ⟨_, sol, solve, rfl, (configure_of_solved solve rfl).symm.trans h⟩
  | error e =>
    rw [solveResult, hop] at solve
    obtain rfl : s.complete (.failed (.invalidConfiguration e)) = t :=
      Host.Outcome.next.inj ((configure_of_failed solve rfl).symm.trans h)
    exact .inr ⟨e, solve, rfl⟩

/-! ## What CONFIGURE keeps -/

/-- CONFIGURE changes ENCODE's ports and the outcome only. -/
theorem configure_frame {s t : State} (h : configure s = .next t) :
    ∃ q r, t = { s with encodeIn := q, last := r } := by
  obtain ⟨u, sol, hsolve, -, hencode⟩ | ⟨e, hsolve, -⟩ := configure_eq_next_cases h
  · obtain rfl := Host.Outcome.next.inj ((exec_solve_eq s).symm.trans hsolve)
    obtain rfl := Host.Outcome.next.inj ((exec_encode_eq _).symm.trans hencode)
    exact ⟨_, _, rfl⟩
  · obtain rfl := Host.Outcome.next.inj ((exec_solve_eq s).symm.trans hsolve)
    exact ⟨s.encodeIn, _, rfl⟩

/-- Words that CONFIGURE returns have their formats: they are those of an ENCODE. -/
theorem configured_ok {s t : State} {W : RegisterWords} (h : configure s = .next t)
    (hlast : t.last = .encoded W) : W.ok := by
  obtain ⟨u, sol, -, -, hencode⟩ | ⟨e, -, hfailed⟩ := configure_eq_next_cases h
  · exact encoded_ok hencode hlast
  · cases hfailed.symm.trans hlast

/-! ## The output divider, 41_register_encoder.md R108 -/

/-- An error of ENCODE that names the output divider tells that the divider is none of the seven. -/
theorem outputDivider_notMem_of_error {c : Config} {p : EncodeInputs} {e : FieldError}
    (h : encodeOp c p = .error e) (hfield : e.field = .outputDivider) :
    p.outputDivider.toNat ∉ outputDividers := by
  obtain range | ⟨-, members⟩ := (encodeOp_eq_error_iff c p e).mp h
  · obtain ⟨-, rfl⟩ | ⟨-, -, rfl⟩ | ⟨-, -, -, rfl⟩ := (rangeCheck_eq_some_iff p e).mp range <;>
      cases hfield
  · obtain ⟨-, rfl⟩ | ⟨-, ⟨-, rfl⟩ | ⟨-, ⟨-, rfl⟩ | ⟨-, ⟨-, rfl⟩ | ⟨-, noDivider, -⟩⟩⟩⟩ :=
      (lookupCodes_eq_error_iff c p e).mp members
    case inr.inr.inr.inr => exact noDivider
    all_goals cases hfield

theorem encodeOp_of_exec_encode {s t : State} {e : FieldError} (h : exec .encode s = .next t)
    (hlast : t.last = .failed (.invalidField e)) : encodeOp s.config s.encodeIn = .error e := by
  obtain ⟨W, -, rfl⟩ | ⟨e', herror, rfl⟩ := (execEncode_eq_next_iff s t).mp h
  · cases hlast
  · cases hlast
    exact herror

/-! ## The obligations -/

/-- Settles O52: an InvalidField is ENCODE's, and the divider tied to its port is a solution's. -/
theorem configureNeverRefusesTheDivider : Obligations.ConfigureNeverRefusesTheDivider := by
  unfold Obligations.ConfigureNeverRefusesTheDivider
  intro s t e h hlast hfield
  obtain ⟨u, sol, hsolve, hsolved, hencode⟩ | ⟨e', -, hfailed⟩ := configure_eq_next_cases h
  · obtain ⟨-, -, divider, -⟩ := solved_ok hsolve hsolved
    have refused := outputDivider_notMem_of_error (encodeOp_of_exec_encode hencode hlast) hfield
    rw [State.tied_encodeIn, tiedInputs_outputDivider_toNat] at refused
    exact refused divider
  · cases hfailed.symm.trans hlast

/-- Settles O51: SOLVE leaves the ports as they are, so the tie takes them from `s`. -/
theorem configureIsSolveThenEncode : Obligations.ConfigureIsSolveThenEncode := by
  unfold Obligations.ConfigureIsSolveThenEncode
  intro s t h
  constructor
  · intro sol hlast
    obtain ⟨-, solvePorts, encodePorts, -⟩ := exec_extends h
    rw [configure_of_solved h hlast, State.tied, solvePorts, encodePorts, BitVec.ofNat_toNat]
    rfl
  · intro e hlast
    exact configure_of_failed h hlast

end Sys2Proof.Machine
end

section
/-! PROOFS. EMIT (42_flow.md R142 to R144): the words it appends to the sink, the same hand-off made call by call,
what the sink recovers by the address tags, and the four bytes a word is written as. -/

namespace Sys2Proof

/-! ## The bytes of a word, 20_memory.md R33 -/

theorem toNat_eq_sum_bytes (w : Word) :
    w.toNat = (slice w 0 8).toNat + (slice w 8 8).toNat * 2 ^ 8 + (slice w 16 8).toNat * 2 ^ 16
      + (slice w 24 8).toNat * 2 ^ 24 := by
  have bound : w.toNat < 2 ^ 32 := w.isLt
  simp only [slice_toNat]
  omega

end Sys2Proof

namespace Sys2Proof.Machine

open Sys2Proof

/-! ## The payload, 42_flow.md R143 -/

theorem payload_little (w : Word) :
    payload .little w = [slice w 0 8, slice w 8 8, slice w 16 8, slice w 24 8] := rfl

theorem payload_big (w : Word) :
    payload .big w = [slice w 24 8, slice w 16 8, slice w 8 8, slice w 0 8] := rfl

/-! ## EMIT, by the outcome held -/

theorem emit_of_encoded {s : State} {W : RegisterWords} (h : s.last = .encoded W) :
    emit s = .next { s with sink := s.sink ++ s.config.emitOrder.map W.get } := by
  simp only [emit, (s.words_eq_some_iff W).mpr h]

/-- Without words EMIT is not performed (42_flow.md R142; log 19). -/
theorem emit_of_failed {s : State} {e : OpError} (h : s.last = .failed e) :
    emit s = .refused .noRegisterWords := by
  simp only [emit, State.words, h]

/-! ## Handing words on call by call (log 7, log 8) -/

theorem run_succ_of_step {M : Host.Core} {s t : M.State} (h : M.step s = .next t) (k : Nat) :
    M.run (k + 1) s = M.run k t := by
  rw [Host.Core.run, h]

/-- A word of some format is read and handed on as it is, whatever variant is driven. -/
theorem step_of_producible {s : State} {w : Word} {rest : List Command} (hw : producible w = true)
    (hcalls : s.calls = .word w :: rest) :
    step s = .next { s with calls := rest, sink := s.sink ++ [w] } := by
  obtain ⟨i, hdecode⟩ := (exists_decodeWord_eq_ok_iff s.encodeIn.variant w).mpr hw
  have read : decode s.encodeIn.variant (.word w) = .ok i := hdecode
  have presented : encode i = .word w := (wf_and_encode_of_decode read).2
  rw [step_of_decode hcalls read, exec_of_encode_eq_word presented]
  rfl

/-- Word calls, one step each, append their words to the sink in their order. -/
theorem run_of_producible {ws : List Word} (hws : ∀ w ∈ ws, producible w = true)
    {s : State} {rest : List Command} (hcalls : s.calls = ws.map .word ++ rest) :
    core.run ws.length s = .next { s with calls := rest, sink := s.sink ++ ws } := by
  induction ws generalizing s with
  | nil =>
    obtain rfl : s.calls = rest := hcalls
    rw [List.append_nil]
    rfl
  | cons w ws ih =>
    have first : core.step s
        = .next { s with calls := ws.map .word ++ rest, sink := s.sink ++ [w] } :=
      step_of_producible (hws w List.mem_cons_self) hcalls
    have others : ∀ v ∈ ws, producible v = true := fun v hv => hws v (List.mem_cons_of_mem w hv)
    rw [List.length_cons, run_succ_of_step first, ih others rfl]
    simp

theorem RegisterWords.ok.producible {W : RegisterWords} (h : W.ok) (i : Fin 6) :
    producible (W.get i) = true :=
  (producible_iff _).mpr ⟨i, h i⟩

theorem emitCalls_eq_map_word (c : Config) (W : RegisterWords) :
    emitCalls c W = (c.emitOrder.map W.get).map .word := by
  simp [emitCalls]

/-! ## What the sink recovers by the tags, 20_memory.md R32 -/

theorem tagOf_injective : Function.Injective tagOf := by
  intro i j h
  have values := congrArg BitVec.toNat h
  rw [tagOf_toNat, tagOf_toNat] at values
  exact Fin.ext values

/-- Each of the six words answers to its own address only. -/
theorem RegisterWords.ok.addressTag_beq {W : RegisterWords} (h : W.ok) (i j : Fin 6) :
    (addressTag (W.get j) == tagOf i) = (j == i) := by
  obtain ⟨tag, -⟩ := (hasFormat_ext_iff j (W.get j)).mp (h j)
  rw [tag, Bool.eq_iff_iff, beq_iff_eq, beq_iff_eq, tagOf_injective.eq_iff]

/-- The words sent last are found by their tags, in whatever order they were sent. -/
theorem delivered_of_mem_order {s : State} {W : RegisterWords} (hW : W.ok) {sent : List Word}
    {order : List (Fin 6)} (hsink : s.sink = sent ++ order.map W.get) {i : Fin 6} (hi : i ∈ order) :
    s.delivered (tagOf i) = some (W.get i) := by
  have byTag : (fun w => addressTag w == tagOf i) ∘ W.get = (· == i) :=
    funext fun j => hW.addressTag_beq i j
  have someFound : (order.reverse.find? (· == i)).isSome = true :=
    List.find?_isSome.mpr ⟨i, List.mem_reverse.mpr hi, beq_self_eq_true i⟩
  obtain ⟨j, found⟩ := Option.isSome_iff_exists.mp someFound
  obtain rfl : j = i := beq_iff_eq.mp (List.find?_some (p := (· == i)) found)
  rw [State.delivered, hsink, List.reverse_append, List.find?_append, ← List.map_reverse, List.find?_map,
    byTag, found]
  rfl

/-! ## The obligations -/

/-- Settles O54: the words of an ENCODE have their formats, so each call sends the next word of the order. -/
theorem emitRunsAsSteps : Obligations.EmitRunsAsSteps := by
  unfold Obligations.EmitRunsAsSteps
  intro s t W q rest h hlast
  have format : W.ok := encoded_ok h hlast
  have sendable : ∀ w ∈ t.config.emitOrder.map W.get, producible w = true :=
    List.forall_mem_map.mpr fun i _ => format.producible i
  have run := run_of_producible sendable
    (s := { t with encodeIn := q, calls := emitCalls t.config W ++ rest })
    (congrArg (· ++ rest) (emitCalls_eq_map_word t.config W))
  have emitted : emit { t with encodeIn := q, calls := rest } = _ := emit_of_encoded hlast
  rw [List.length_map] at run
  exact run.trans emitted.symm

/-- Settles O55: an instantiation's order names each address, and the words' tags are their addresses. -/
theorem configureThenEmitDelivers : Obligations.ConfigureThenEmitDelivers := by
  unfold Obligations.ConfigureThenEmitDelivers
  intro s t u W hwf hconfigure hlast hemit
  obtain ⟨-, -, -, order⟩ := (Config.wf_iff s.config).mp hwf
  have format : W.ok := configured_ok hconfigure hlast
  obtain ⟨q, r, rfl⟩ := configure_frame hconfigure
  obtain rfl := Host.Outcome.next.inj ((emit_of_encoded hlast).symm.trans hemit)
  constructor
  · simp [order.length_eq]
  · intro i
    have everyAddress : ∀ j : Fin 6, j ∈ ([0, 1, 2, 3, 4, 5] : List (Fin 6)) := by decide
    exact delivered_of_mem_order format rfl (order.mem_iff.mpr (everyAddress i))

/-- Settles O56: CONFIGURE sends nothing, and an error leaves no words. -/
theorem nothingSentAfterFailure : Obligations.NothingSentAfterFailure := by
  unfold Obligations.NothingSentAfterFailure
  intro s t e h hlast
  obtain ⟨q, r, rfl⟩ := configure_frame h
  exact ⟨rfl, emit_of_failed hlast⟩

/-- Settles O53: EMIT's words under EMIT_ORDER's spec value. -/
theorem emitSendsDescending : Obligations.EmitSendsDescending := by
  unfold Obligations.EmitSendsDescending
  intro s W hlast horder
  rw [emit_of_encoded hlast, horder]
  rfl

/-- Settles O58: the payload's bytes are the word's four slices of 8 bits. -/
theorem payloadIsTheWord : Obligations.PayloadIsTheWord := by
  unfold Obligations.PayloadIsTheWord
  intro w
  exact ⟨_, _, _, _, payload_little w, payload_big w, toNat_eq_sum_bytes w⟩

end Sys2Proof.Machine
end

section
/-! PROOFS. Errors (60_exceptions.md R150, R161 to R163): each operation ends in its own kind, an error leaves
no result, and what an operation does is independent of the outcome of the one before it. -/

namespace Sys2Proof.Machine

open Sys2Proof

/-! ## The outcome field: after an error no view of it answers, and the next outcome replaces it -/

@[simp] theorem State.raise_solution (s : State) (e : OpError) : (s.raise e).solution = none := rfl
@[simp] theorem State.raise_words (s : State) (e : OpError) : (s.raise e).words = none := rfl

@[simp] theorem State.complete_complete (s : State) (r r' : OpResult) :
    (s.complete r).complete r' = s.complete r' := rfl

/-! ## The kind of outcome of each operation, 60_exceptions.md R150 -/

theorem solveResult_cases (c : Config) (p : SolveInputs) :
    (∃ sol, solveResult c p = .solved sol)
      ∨ ∃ e, solveResult c p = .failed (.invalidConfiguration e) := by
  unfold solveResult
  cases solveOp c p with
  | ok sol => exact .inl ⟨sol, rfl⟩
  | error e => exact .inr ⟨e, rfl⟩

theorem encodeResult_cases (c : Config) (p : EncodeInputs) :
    (∃ W, encodeResult c p = .encoded W)
      ∨ ∃ e, encodeResult c p = .failed (.invalidField e) := by
  unfold encodeResult
  cases encodeOp c p with
  | ok W => exact .inl ⟨W, rfl⟩
  | error e => exact .inr ⟨e, rfl⟩

/-! ## An operation and the outcome before it -/

theorem eq_complete_of_operation {i : Instr} {s t : State} (hi : i = .solve ∨ i = .encode)
    (h : exec i s = .next t) : ∃ r, t = s.complete r := by
  obtain ⟨r, hr⟩ := exec_of_operation hi s
  exact ⟨r, Host.Outcome.next.inj (h.symm.trans hr)⟩

/-- The outcome a state holds is no input of an operation: it reads ports and parameters, and the
outcome it writes replaces the one held (10_state.md R10). -/
theorem exec_complete {i : Instr} (hi : i = .solve ∨ i = .encode) (s : State) (r : OpResult) :
    exec i (s.complete r) = exec i s := by
  obtain rfl | rfl := hi
  · rw [exec_solve_eq, exec_solve_eq, State.complete_complete, State.complete_config,
      State.complete_solveIn]
  · rw [exec_encode_eq, exec_encode_eq, State.complete_complete, State.complete_config,
      State.complete_encodeIn]

/-- An operation that ends with an error has done nothing but raise it. -/
theorem eq_raise_of_operation_failed {i : Instr} {s t : State} {e : OpError}
    (hi : i = .solve ∨ i = .encode) (h : exec i s = .next t) (hlast : t.last = .failed e) :
    t = s.raise e := by
  obtain ⟨r, rfl⟩ := eq_complete_of_operation hi h
  obtain rfl : r = .failed e := hlast
  rfl

/-! ## The obligations -/

/-- Settles O44: the first operation writes an outcome, and the second one does not read it. -/
theorem operationsForgetThePast : Obligations.OperationsForgetThePast := by
  unfold Obligations.OperationsForgetThePast
  intro i j s t hi hj h
  obtain ⟨r, rfl⟩ := eq_complete_of_operation hj h
  exact exec_complete hi s r

/-- Settles O24: SOLVE ends with `solveResult`, which is of one of the two kinds. -/
theorem solveEndsInItsOwnKind : Obligations.SolveEndsInItsOwnKind := by
  unfold Obligations.SolveEndsInItsOwnKind
  intro s
  exact ⟨_, exec_solve_eq s, solveResult_cases s.config s.solveIn⟩

/-- Settles O35: ENCODE ends with `encodeResult`, which is of one of the two kinds. -/
theorem encodeEndsInItsOwnKind : Obligations.EncodeEndsInItsOwnKind := by
  unfold Obligations.EncodeEndsInItsOwnKind
  intro s
  exact ⟨_, exec_encode_eq s, encodeResult_cases s.config s.encodeIn⟩

/-- Settles O43: the state after an error is `State.raise`, in which no view of the outcome answers. -/
theorem errorsLeaveNoResult : Obligations.ErrorsLeaveNoResult := by
  unfold Obligations.ErrorsLeaveNoResult
  intro i s t e hi h hlast
  obtain rfl := eq_raise_of_operation_failed hi h hlast
  exact ⟨rfl, s.raise_solution e, s.raise_words e⟩

end Sys2Proof.Machine
end
